-- ==== Sys2Proof/Word.lean ====
section
/-! DEFINITION. The word types of the block (spec/00_scope.md R7, R9, R10). -/

namespace Sys2Proof

/-- A 64-bit value: a lane, an operand, a result, `N`, `I` (00_scope.md R7 `LANE_BITS`, `N_BITS`). -/
abbrev Word := BitVec 64

/-- A byte of the digest register (00_scope.md R10). -/
abbrev Byte := BitVec 8

/-- One word of the output adapter (00_scope.md R5 `WORDS`, 42_boundary_adapters.md R143). -/
abbrev Word32 := BitVec 32

end Sys2Proof
end

