-- ==== Sys2Proof/Syntax.lean ====
section
/-! DEFINITION. The operations of the block: one constructor of `Instr` for each row of
spec/opcode_table.json, the words of the three formats, and the encodings that name no operation. -/

namespace Sys2Proof

/-- An operation. A field the operation ignores (30_encoding.md R81) is kept, so that an encoding is
recovered whole; no meaning reads it. -/
inductive Instr where
  /-- ADD `a`, `b` (format H, `cmd_op` 000; 40_engine_ops.md R95). -/
  | add (a b : Word)
  /-- MUL `a`, `b` (format H, 001; R96). -/
  | mul (a b : Word)
  /-- SBOX `a`, field `b` ignored (format H, 010; R97). -/
  | sbox (a b : Word)
  /-- The reserved command 011, both fields ignored (30_encoding.md R78). -/
  | reserved011 (a b : Word)
  /-- START `n` = field `a`, field `b` ignored (format H, 100; 41_sequencer_ops.md R111). -/
  | start (n b : Word)
  /-- The reserved command 101. -/
  | reserved101 (a b : Word)
  /-- The reserved command 110. -/
  | reserved110 (a b : Word)
  /-- The reserved command 111. -/
  | reserved111 (a b : Word)
  /-- MAE.ADD `a`, `b` (format E, `mae_op` 00; 40_engine_ops.md R92). -/
  | maeAdd (a b : Word)
  /-- MAE.MUL `a`, `b` (format E, 01; R93). -/
  | maeMul (a b : Word)
  /-- MAE.SBOX `a`, `mae_b` not used (format E, 10; R94). -/
  | maeSbox (a b : Word)
  /-- The hold of `PH` = 000 (format U; 41_sequencer_ops.md R118). -/
  | idle
  /-- CHECK (format U, `PH` 001; R112). -/
  | check
  /-- UNPACK (format U, 010; R113). -/
  | unpack
  /-- KEYADD (format U, 011; R114). -/
  | keyadd
  /-- SBOXL (format U, 100; R115). -/
  | sboxl
  /-- MIX (format U, 101; R116). -/
  | mix
  /-- PACK (format U, 110; R117). -/
  | pack
  deriving DecidableEq, Repr

/-- The MAE's operation select, the three issued values (30_encoding.md R76; 93 U2: no fourth). -/
inductive MaeOp where
  | add | mul | sbox
  deriving DecidableEq, Repr

/-- A word of one of the three formats (30_encoding.md R70): which wires it travels on, and its bits. -/
inductive Wire where
  /-- Format H on the command port: `CW[130:0] = (op, a, b)` (R71). -/
  | cmd (w : BitVec 131)
  /-- Format E on the MAE port: `(op, a, b)` (R72). -/
  | mae (w : BitVec 130)
  /-- Format U: the value of `PH` (R73). -/
  | phase (w : BitVec 3)
  deriving DecidableEq, Repr

/-- Why a word names no operation. -/
inductive DecodeError where
  /-- `mae_op` = 11, never driven (30_encoding.md R79). -/
  | reservedMaeOp
  /-- `PH` = 111, never reached (30_encoding.md R80). -/
  | unreachedPhase
  deriving DecidableEq, Repr

end Sys2Proof
end

