-- ==== Sys2Proof/Decode.lean ====
section
/-! DEFINITION. The decoder, total on every word of every format, then the encoder, both from the tables
of spec/30_encoding.md R71 to R77; and the reading of a word numbered as spec/opcode_table.json numbers it. -/

namespace Sys2Proof

/-- Format H: `cmd_op` decides the command completely, and each of its eight values is a command or
illegal (R75, R82). The last branch is the value 111. -/
def decodeCmd (w : BitVec 131) : Instr :=
  let op : BitVec 3 := w.extractLsb' 128 3
  let a : Word := w.extractLsb' 64 64
  let b : Word := w.extractLsb' 0 64
  if op = 0b000#3 then .add a b
  else if op = 0b001#3 then .mul a b
  else if op = 0b010#3 then .sbox a b
  else if op = 0b011#3 then .reserved011 a b
  else if op = 0b100#3 then .start a b
  else if op = 0b101#3 then .reserved101 a b
  else if op = 0b110#3 then .reserved110 a b
  else .reserved111 a b

/-- Format E (R76); `mae_op` 11 names no operation (R79). -/
def decodeMae (w : BitVec 130) : Except DecodeError Instr :=
  let op : BitVec 2 := w.extractLsb' 128 2
  let a : Word := w.extractLsb' 64 64
  let b : Word := w.extractLsb' 0 64
  if op = 0b00#2 then .ok (.maeAdd a b)
  else if op = 0b01#2 then .ok (.maeMul a b)
  else if op = 0b10#2 then .ok (.maeSbox a b)
  else .error .reservedMaeOp

/-- Format U (R77); `PH` 111 names no micro-operation (R80). -/
def decodePhase (w : BitVec 3) : Except DecodeError Instr :=
  if w = 0b000#3 then .ok .idle
  else if w = 0b001#3 then .ok .check
  else if w = 0b010#3 then .ok .unpack
  else if w = 0b011#3 then .ok .keyadd
  else if w = 0b100#3 then .ok .sboxl
  else if w = 0b101#3 then .ok .mix
  else if w = 0b110#3 then .ok .pack
  else .error .unreachedPhase

/-- The decoder. The three formats travel on three sets of wires, so it never has to tell one from
another (R83). -/
def decode : Wire → Except DecodeError Instr
  | .cmd w => .ok (decodeCmd w)
  | .mae w => decodeMae w
  | .phase w => decodePhase w

/-- `CW[130:0] = (op, a, b)` (R71). -/
def commandWord (op : BitVec 3) (a b : Word) : BitVec 131 := op ++ a ++ b

/-- The word of format E, `(op, a, b)` (R72). -/
def maeWord (op : BitVec 2) (a b : Word) : BitVec 130 := op ++ a ++ b

/-- The encoder: the word of an operation, from the same tables (R75, R76, R77). -/
def encode : Instr → Wire
  | .add a b => .cmd (commandWord 0b000#3 a b)
  | .mul a b => .cmd (commandWord 0b001#3 a b)
  | .sbox a b => .cmd (commandWord 0b010#3 a b)
  | .reserved011 a b => .cmd (commandWord 0b011#3 a b)
  | .start n b => .cmd (commandWord 0b100#3 n b)
  | .reserved101 a b => .cmd (commandWord 0b101#3 a b)
  | .reserved110 a b => .cmd (commandWord 0b110#3 a b)
  | .reserved111 a b => .cmd (commandWord 0b111#3 a b)
  | .maeAdd a b => .mae (maeWord 0b00#2 a b)
  | .maeMul a b => .mae (maeWord 0b01#2 a b)
  | .maeSbox a b => .mae (maeWord 0b10#2 a b)
  | .idle => .phase 0b000#3
  | .check => .phase 0b001#3
  | .unpack => .phase 0b010#3
  | .keyadd => .phase 0b011#3
  | .sboxl => .phase 0b100#3
  | .mix => .phase 0b101#3
  | .pack => .phase 0b110#3

/-- The selector of a word, the field `match` and `mask` of spec/opcode_table.json are on (R71). -/
def Wire.selector : Wire → Nat
  | .cmd w => (w.extractLsb' 128 3).toNat
  | .mae w => (w.extractLsb' 128 2).toNat
  | .phase w => w.toNat

/-- The word meant by `nbits` bits of value `w` numbered as spec/opcode_table.json numbers a row. The
table numbers the SELECTOR alone, from bit 0, and says nothing of the operand fields. Lengths 3 and 130
are words of formats U and E; any other length is a word of format H, the only one given from outside. A
value that fits the selector is the selector, with operand fields of zeros; a larger one is the whole word
as 30_encoding.md R71 and R72 lay it out. The same number names rows of three formats: DESIGN CHOICE, log
entry 10. -/
def tableWire (nbits w : Nat) : Option Wire :=
  if nbits = 3 then
    if w < 8 then some (.phase (BitVec.ofNat 3 w)) else none
  else if nbits = 130 then
    if w < 4 then some (.mae (maeWord (BitVec.ofNat 2 w) 0 0))
    else if w < 2 ^ 130 then some (.mae (BitVec.ofNat 130 w)) else none
  else
    if w < 8 then some (.cmd (commandWord (BitVec.ofNat 3 w) 0 0))
    else if 131 ≤ nbits ∧ w < 2 ^ 131 then some (.cmd (BitVec.ofNat 131 w)) else none

/-- The operation the decoder reads from a word numbered as the table numbers it, `none` where it
refuses. -/
def decodeTableWord (nbits w : Nat) : Option Instr :=
  match tableWire nbits w with
  | none => none
  | some x => (decode x).toOption

end Sys2Proof
end

