-- ==== Sys2Proof/Machine/Constants.lean ====
section
/-! DEFINITION. The literal constants of the block, each named once (spec/00_scope.md R5;
92_eei_decisions.md D32). They are definitions and no state (10_state.md R35, R43). -/

namespace Sys2Proof.Machine

/-- `P`, the source's MODULUS: `2^63 - 1`. -/
def modulus : Nat := 0x7FFFFFFFFFFFFFFF

/-- `RK[r]`, the round keys, used as they stand and never reduced (R5, R6). -/
def roundKey : Fin 3 → Word
  | 0 => 0x1234567890ABCDEF#64
  | 1 => 0xFEDCBA0987654321#64
  | 2 => 0xDEADBEEFCAFEBABE#64

/-- The scalar MIX multiplies lane 1 by in row 1 (R5, 41_sequencer_ops.md R116). -/
def mixScalar1 : Word := 2#64

/-- The scalar MIX multiplies lane 2 by in row 2. -/
def mixScalar2 : Word := 3#64

/-- `M`, the mixing matrix, row `j` giving new lane `j` (R5). MIX is defined by its own three sums
(R116); that they are this matrix is a statement. -/
def mixMatrix : List (List Nat) := [[1, 1, 1], [1, 2, 1], [1, 1, 3]]

/-- `ROUNDS`: rounds in one permutation. -/
def rounds : Nat := 3

/-- `DIGEST_BYTES`: bytes in a digest. -/
def digestBytes : Nat := 32

/-- `LANE_BYTES`: bytes of the digest that hold one lane. -/
def laneBytes : Nat := 8

/-- The last round, the one after which MIX goes on to PACK (R116: "if RND = 2"). -/
def lastRound : Fin 3 := 2

end Sys2Proof.Machine
end

