-- ==== Sys2Proof/Machine/State.lean ====
section
/-! DEFINITION. The state of the block (spec/10_state.md R20), with the model's own record of the input
wires; the reasons a step can stop; the state after reset (R41). -/

namespace Sys2Proof.Machine

/-- `PH`, the sequencer phase: exactly the seven legal values (10_state.md R25, 93 U5). -/
inductive Phase where
  | idle | check | unpack | keyadd | sboxl | mix | pack
  deriving DecidableEq, Repr

/-- `ECODE`, the cause of the fault: the three values ever written (10_state.md R31). -/
inductive ECode where
  /-- 0, no fault. -/
  | noFault
  /-- 1, `E_ILLCMD`: a reserved `cmd_op` was accepted (60_exceptions.md R151). -/
  | illCmd
  /-- 2, `E_DOMAIN`: an engine command was accepted with an operand of `P` or more (R152). -/
  | domain
  deriving DecidableEq, Repr

/-- The three lane registers `S[0]`, `S[1]`, `S[2]` (10_state.md R21). -/
structure Lanes where
  l0 : Word
  l1 : Word
  l2 : Word
  deriving DecidableEq, Repr

/-- The digest register `D`, the block's memory (20_memory.md R50): the bytes that differ from the reset
contents (zero, 10_state.md R41), by index, in the one form `Memory.wf` of Machine/Ops.lean says. -/
abbrev Memory := List Host.Cell

/-- The MAE port driven by itself: `mae_op`, `mae_a`, `mae_b` (10_state.md R38). -/
structure MaeDrive where
  op : BitVec 2
  a : Word
  b : Word
  deriving DecidableEq, Repr

/-- The values of the block's input wires at one step (10_state.md R38). `mae` is the MAE's own port,
driven by neither of its two clients. -/
structure Pins where
  rst : Bool
  cmdValid : Bool
  cmdOp : BitVec 3
  cmdA : Word
  cmdB : Word
  mae : Option MaeDrive
  deriving DecidableEq, Repr

/-- The state: the tuple of 10_state.md R20, then two fields of the model's own. -/
structure State where
  /-- `S[0]`, `S[1]`, `S[2]` (R21). -/
  lanes : Lanes
  /-- `R`, the result register (R23). -/
  r : Word
  /-- `D[0..31]`, the digest register (R33). -/
  d : Memory
  /-- `N`, the iteration count (R27). -/
  n : Word
  /-- `I`, the permutations completed in the run (R28). -/
  i : Word
  /-- `RND`, the round index, 0 to 2 (R26). -/
  rnd : Fin 3
  /-- `PH`, the phase (R25). -/
  ph : Phase
  /-- `DONE` (R29). -/
  done : Bool
  /-- `ERR`, sticky (R30). -/
  err : Bool
  /-- `ECODE` (R31). -/
  ecode : ECode
  /-- MODEL'S OWN: `mae_r` when the MAE port was last driven by itself (log entry 3). -/
  maeR : Word
  /-- MODEL'S OWN: the input wires at the coming steps, the next one first (log entry 1). -/
  tape : List Pins
  deriving DecidableEq, Repr

/-- A fault of the MODEL. The block's own faults `E_ILLCMD` and `E_DOMAIN` are next states
(60_exceptions.md R153). -/
inductive Fault where
  /-- An access to a byte of `D` that does not exist (20_memory.md R50: indexes 0 to 31). Raised by
  `memRead` and `memWrite` when `addr + n` is over 32, which no operation of the block does (00_scope.md
  R13). Safe: the model stops. -/
  | digestAddress
  deriving DecidableEq, Repr

/-- A refusal: no meaning. -/
inductive Refusal where
  /-- An operation the model gives no meaning to. Raised by no arm of `exec`. Safe. -/
  | notModelled (mnemonic : String)
  /-- `add_p(a, b)` with `a` of `P` or more, which the spec does not define and wants refused
  (93_implementation_defined.md U1). Raised by MAE.ADD, and by KEYADD and MIX in states no run reaches.
  Safe: the model stops. -/
  | addOutsideDomain
  /-- A word that names no operation was driven: `mae_op` = 11 (30_encoding.md R79, 93 U2). Raised by
  `step`. Safe: the model stops. -/
  | undefinedEncoding (why : DecodeError)
  deriving DecidableEq, Repr

/-- What a step answers. -/
abbrev Result := Host.Outcome State Fault Refusal

/-- The state after reset: the table of 10_state.md R41 (70_reset_and_hazards.md R170), and nothing
driven on the input wires. -/
def State.reset : State where
  lanes := { l0 := 0, l1 := 0, l2 := 0 }
  r := 0
  d := []
  n := 0
  i := 0
  rnd := 0
  ph := .idle
  done := false
  err := false
  ecode := .noFault
  maeR := 0
  tape := []

end Sys2Proof.Machine
end

