-- ==== Sys2Proof/Machine/Operands.lean ====
section
/-! DEFINITION. The operands: byte order (spec/00_scope.md R11, 20_memory.md R52), the domain check of the
command port (40_engine_ops.md R91), the codes of the small registers, and the fields of the input wires. -/

namespace Sys2Proof.Machine

/-- The number whose base-256 digits are the bytes, least significant first. -/
def leNat : List Byte → Nat
  | [] => 0
  | b :: bs => b.toNat + 256 * leNat bs

/-- The number whose base-256 digits are the bytes, most significant first. -/
def beNat (bs : List Byte) : Nat := leNat bs.reverse

/-- `LE64` of 8 bytes (00_scope.md R11). -/
def le64 (bs : List Byte) : Word := BitVec.ofNat 64 (leNat bs)

/-- `BYTES_LE64` of a 64-bit value: byte `k` is bits `8k+7` to `8k` (R11). -/
def bytesLe64 (v : Word) : List Byte := (List.range 8).map fun k => v.extractLsb' (8 * k) 8

/-- `BE32` of 4 bytes (R11). -/
def be32 (bs : List Byte) : Word32 := BitVec.ofNat 32 (beNat bs)

/-- `0^k`, a sequence of zero bytes (R10). -/
def zeroBytes (k : Nat) : List Byte := List.replicate k 0

/-- The operand is a field element, an integer in `[0, P)` (R9). -/
def isElem (a : Word) : Bool := decide (a.toNat < modulus)

/-- `x mod P`, the full reduction of a 64-bit value (R12; UNPACK, 41_sequencer_ops.md R113). -/
def reduce (v : Word) : Word := BitVec.ofNat 64 (v.toNat % modulus)

/-- The code of `PH` (10_state.md R25). -/
def Phase.code : Phase → BitVec 3
  | .idle => 0b000#3
  | .check => 0b001#3
  | .unpack => 0b010#3
  | .keyadd => 0b011#3
  | .sboxl => 0b100#3
  | .mix => 0b101#3
  | .pack => 0b110#3

/-- The phase of a code; 111 is none (30_encoding.md R80). -/
def Phase.ofCode (c : BitVec 3) : Option Phase :=
  if c = 0b000#3 then some .idle
  else if c = 0b001#3 then some .check
  else if c = 0b010#3 then some .unpack
  else if c = 0b011#3 then some .keyadd
  else if c = 0b100#3 then some .sboxl
  else if c = 0b101#3 then some .mix
  else if c = 0b110#3 then some .pack
  else none

/-- The code of `ECODE` (10_state.md R31). -/
def ECode.code : ECode → BitVec 2
  | .noFault => 0
  | .illCmd => 1
  | .domain => 2

/-- No input wire driven: `rst = 0`, `cmd_valid = 0`, and the MAE port left to its two clients. -/
def Pins.quiet : Pins where
  rst := false
  cmdValid := false
  cmdOp := 0
  cmdA := 0
  cmdB := 0
  mae := none

/-- The command on the port as one word (30_encoding.md R71). -/
def Pins.word (p : Pins) : BitVec 131 := commandWord p.cmdOp p.cmdA p.cmdB

/-- The pins that present a command. -/
def Pins.ofCommand (op : BitVec 3) (a b : Word) : Pins :=
  { Pins.quiet with cmdValid := true, cmdOp := op, cmdA := a, cmdB := b }

/-- The pins that present a command word: field `op` is bits 130 to 128, `a` 127 to 64, `b` 63 to 0. -/
def Pins.ofWord (w : BitVec 131) : Pins :=
  Pins.ofCommand (w.extractLsb' 128 3) (w.extractLsb' 64 64) (w.extractLsb' 0 64)

/-- The pins of a rising edge with `rst = 1`. -/
def Pins.reset : Pins := { Pins.quiet with rst := true }

/-- The word on the MAE port (30_encoding.md R72). -/
def MaeDrive.word (m : MaeDrive) : BitVec 130 := maeWord m.op m.a m.b

/-- The MAE port driven by a word of format E. -/
def MaeDrive.ofWord (w : BitVec 130) : MaeDrive where
  op := w.extractLsb' 128 2
  a := w.extractLsb' 64 64
  b := w.extractLsb' 0 64

/-- The input wires at the coming step; past the end of the tape nothing is driven. -/
def State.pins (s : State) : Pins :=
  match s.tape with
  | [] => Pins.quiet
  | p :: _ => p

/-- The same state one entry further on the tape. -/
def State.advance (s : State) : State := { s with tape := s.tape.tail }

end Sys2Proof.Machine
end

