-- ==== Sys2Proof/Machine/Arith.lean ====
section
/-! DEFINITION. The MAE: `add_p`, `mul_p`, `sbox_p` (spec/40_engine_ops.md R90 to R94), and the lane mixing
built from them (41_sequencer_ops.md R116). Exact arithmetic on `Nat`, narrowed once at the end (R98). -/

namespace Sys2Proof.Machine

/-- `add_p(a, b)`: the exact sum, less `P` once if it is `P` or more; defined for `a < P` and any 64-bit
`b`, and for nothing else (R91, R92; 93 U1). -/
def addP (a b : Word) : Option Word :=
  if a.toNat < modulus then
    let t := a.toNat + b.toNat
    some (BitVec.ofNat 64 (if modulus ≤ t then t - modulus else t))
  else none

/-- `mul_p(a, b)`: the remainder modulo `P` of the exact product (R93). -/
def mulP (a b : Word) : Word := BitVec.ofNat 64 (a.toNat * b.toNat % modulus)

/-- `sbox_p(x)`: `x^5 mod P` by three multiplications, the last one by `x` itself (R94). -/
def sboxP (x : Word) : Word :=
  let x2 := mulP x x
  let x4 := mulP x2 x2
  mulP x4 x

/-- The MAE as a unit: `mae_r` from `mae_op`, `mae_a`, `mae_b` and nothing else (R90). -/
def mae (op : MaeOp) (a b : Word) : Option Word :=
  match op with
  | .add => addP a b
  | .mul => some (mulP a b)
  | .sbox => some (sboxP a)

/-- One row of MIX, left to right: `add_p(add_p(x, y), z)` (41_sequencer_ops.md R116). -/
def mixRow (x y z : Word) : Option Word := do
  let xy ← mae .add x y
  mae .add xy z

/-- The three sums of MIX on a snapshot of the lanes (R116). -/
def mixLanes (t : Lanes) : Option Lanes := do
  let m1 ← mae .mul mixScalar1 t.l1
  let m2 ← mae .mul mixScalar2 t.l2
  let x0 ← mixRow t.l0 t.l1 t.l2
  let x1 ← mixRow t.l0 m1 t.l2
  let x2 ← mixRow t.l0 t.l1 m2
  return { l0 := x0, l1 := x1, l2 := x2 }

end Sys2Proof.Machine
end

