-- ==== Sys2Proof/Config.lean ====
section
/-! DEFINITION. What the spec leaves open: the timing parameter `CYC` and the one free value. Nothing
here has a value a proof could use. The fixed constants of 00_scope.md R5 are in Machine/Constants.lean. -/

namespace Sys2Proof

/-- The kinds of step `CYC` is a function of (92_eei_decisions.md D26). -/
inductive StepKind where
  | add | mul | sbox | start | illegal | check | unpack | keyadd | sboxl | mix | pack
  deriving DecidableEq, Repr

/-- Free: how many clock cycles a step of a kind takes beyond the first (00_scope.md R8, open). -/
opaque Config.cycBeyondFirst : StepKind → Nat

/-- `CYC` of 00_scope.md R8: a positive number of clock cycles for each kind of step, otherwise open. -/
def Config.cyc (k : StepKind) : Nat := Config.cycBeyondFirst k + 1

/-- Free: what PACK leaves in `I` when `I` is `2^64 - 1`, the one value for which `I + 1` does not fit
(10_state.md R24: it "is computed only when `I < N`"). DESIGN CHOICE, log entry 8. -/
opaque Config.incrementPastTop : Word

end Sys2Proof
end

