-- ==== Sys2Proof/Machine/Flags.lean ====
section
/-! DEFINITION. The derived signals and what the host observes: READY and BUSY (spec/10_state.md R37), STATUS
(R32), `digest_out` (R39) and the observation (R40). No operation has condition codes. -/

namespace Sys2Proof.Machine

/-- `BUSY = 1` exactly when `PH` is not `IDLE` (R37). -/
def State.busy (s : State) : Bool := decide (s.ph ≠ .idle)

/-- `READY = 1` exactly when `PH = IDLE` and `ERR = 0` (R37); also the output `cmd_ready` (R38). -/
def State.ready (s : State) : Bool := decide (s.ph = .idle) && !s.err

/-- `STATUS[7:0]`: reserved zeros, `ECODE`, `ERR`, `DONE`, `BUSY`, `READY`, from bit 7 down (R32). -/
def State.status (s : State) : BitVec 8 :=
  0#2 ++ s.ecode.code ++ BitVec.ofBool s.err ++ BitVec.ofBool s.done ++ BitVec.ofBool s.busy ++ BitVec.ofBool s.ready

/-- Byte `a` of a digest register: what is listed, else the reset contents, zero (R41). -/
def Memory.read : Memory → Nat → Byte
  | [], _ => 0
  | (k, v) :: m, a => if k = a then v else Memory.read m a

/-- The 32 bytes `D[0]` to `D[31]` in order. -/
def Memory.digest (m : Memory) : List Byte := (List.range digestBytes).map m.read

/-- `digest_out`: byte `i` of `D` on bits `8i+7` to `8i` when `DONE = 1`, all zero when `DONE = 0` (R39,
20_memory.md R53). -/
def State.digestOut (s : State) : BitVec 256 :=
  if s.done then BitVec.ofNat 256 (leNat s.d.digest) else 0

/-- What one observation returns (R40). -/
structure Observation where
  status : BitVec 8
  res : Word
  digestOut : BitVec 256
  deriving DecidableEq, Repr

/-- A host observation: a function of the state, which it leaves alone (R40; 00_scope.md R15 (d)). -/
def State.observe (s : State) : Observation where
  status := s.status
  res := s.r
  digestOut := s.digestOut

/-- The bytes a host reads off `digest_out`: byte `i` from bits `8i+7` to `8i` (42_boundary_adapters.md
R143). -/
def digestOutBytes (v : BitVec 256) : List Byte := (List.range digestBytes).map fun k => v.extractLsb' (8 * k) 8

end Sys2Proof.Machine
end

