-- ==== Sys2Proof/Machine/Ops.lean ====
section
/-! DEFINITION. The named operations over memory and registers: `MemRead` and `MemWrite` of spec/00_scope.md
R13 on the digest register; taking a fault (60_exceptions.md R153) and the only way out of it, reset (R156,
70_reset_and_hazards.md R170); when a command is accepted and when a micro-operation executes. -/

namespace Sys2Proof.Machine

/-- The memory without an entry for byte `a`, which then reads as the reset contents. -/
def Memory.unlist (m : Memory) (a : Nat) : Memory := m.filter fun c => decide (c.1 ≠ a)

/-- An entry put before the first one of a higher index. -/
def Memory.list : Memory → Nat → Byte → Memory
  | [], a, b => [(a, b)]
  | c :: m, a, b => if a < c.1 then (a, b) :: c :: m else c :: Memory.list m a b

/-- The same memory with byte `a` set to `b`, in canonical form again: a zero byte is not listed. -/
def Memory.write (m : Memory) (a : Nat) (b : Byte) : Memory := if b = 0 then m.unlist a else (m.unlist a).list a b

/-- Bytes written one after another from `a` up. -/
def Memory.writeBytes : Memory → Nat → List Byte → Memory
  | m, _, [] => m
  | m, a, b :: bs => Memory.writeBytes (m.write a b) (a + 1) bs

/-- The canonical form above an index: indexes strictly rising, below 32, no entry zero. -/
def Memory.wfFrom : Nat → Memory → Bool
  | _, [] => true
  | lo, (k, v) :: m => decide (lo ≤ k) && decide (k < digestBytes) && decide (v ≠ 0) && Memory.wfFrom (k + 1) m

/-- The one form of a digest register. -/
def Memory.wf (m : Memory) : Bool := Memory.wfFrom 0 m

/-- `MemRead(addr, n)`: `n` bytes from index `addr`, `none` where one of them does not exist. -/
def memRead (m : Memory) (addr n : Nat) : Option (List Byte) :=
  if addr + n ≤ digestBytes then some ((List.range n).map fun k => m.read (addr + k)) else none

/-- `MemWrite(addr, n, v)` with `v` of `n` bytes, `none` where one of them would fall outside. -/
def memWrite (m : Memory) (addr : Nat) (v : List Byte) : Option Memory :=
  if addr + v.length ≤ digestBytes then some (m.writeBytes addr v) else none

/-- The next state with the memory an access gave, or the model's fault if the access was outside `D`. -/
def orDigestFault (m : Option Memory) (k : Memory → State) : Result :=
  match m with
  | some m' => .next (k m')
  | none => .fault .digestAddress

/-- `raise Fault(code)`: `ERR <- 1`, `ECODE <- code`, nothing else changes (60_exceptions.md R153). -/
def raiseFault (code : ECode) (s : State) : State := { s with err := true, ecode := code }

/-- Reset: every piece of state takes its reset value (70_reset_and_hazards.md R170). The tape of the
outside world goes on. There is no other return from a fault (60_exceptions.md R156). -/
def takeReset (s : State) : State := { State.reset with tape := s.tape.tail }

/-- The acceptance of a host command: with `READY = 1` it has its effect; with `READY = 0` it is not
accepted, not stored and has no effect (30_encoding.md R86). -/
def accept (s : State) (effect : Result) : Result := if s.ready then effect else .next s

/-- A micro-operation executes when `PH` holds its code and at no other time (30_encoding.md R73,
00_scope.md R15 (a)); not selected, it changes nothing. DEDUCED, log entry 4. -/
def whenPhase (p : Phase) (s : State) (effect : Result) : Result := if s.ph = p then effect else .next s

/-- The next state with a result of the MAE, or the refusal where the MAE has none (93 U1). -/
def orAddRefused {α : Type} (v : Option α) (k : α → State) : Result :=
  match v with
  | some x => .next (k x)
  | none => .refused .addOutsideDomain

/-- `I + 1` (41_sequencer_ops.md R117). It never wraps, since PACK runs with `I < N` (10_state.md R24); at
`2^64 - 1`, which no run reaches there, the value is free (log entry 8). -/
def incrementI (i : Word) : Word := if i.toNat + 1 < 2 ^ 64 then i + 1 else Config.incrementPastTop

end Sys2Proof.Machine
end

