-- ==== Sys2Proof/Machine/Engine.lean ====
section
/-! DEFINITION. The engine commands ADD, MUL, SBOX (spec/40_engine_ops.md R95 to R97), the four reserved
commands (30_encoding.md R78) and the MAE operations of format E (40_engine_ops.md R92 to R94). -/

namespace Sys2Proof.Machine

/-- An engine command once accepted: with every operand it uses a field element `R` takes the MAE's
result, otherwise the fault `E_DOMAIN` before the MAE is used (R101, 60_exceptions.md R152). -/
def engineCommand (inDomain : Bool) (result : Option Word) (s : State) : Result :=
  accept s (if inDomain then orAddRefused result (fun v => { s with r := v }) else .next (raiseFault .domain s))

/-- ADD (R95). -/
def execAdd (a b : Word) (s : State) : Result := engineCommand (isElem a && isElem b) (mae .add a b) s

/-- MUL (R96). -/
def execMul (a b : Word) (s : State) : Result := engineCommand (isElem a && isElem b) (mae .mul a b) s

/-- SBOX (R97): field `b` is neither used nor checked (30_encoding.md R81). -/
def execSbox (a b : Word) (s : State) : Result := engineCommand (isElem a) (mae .sbox a b) s

/-- A reserved command once accepted (30_encoding.md R78): no operand is read. -/
def illegalCommand (s : State) : Result := accept s (.next (raiseFault .illCmd s))

/-- `cmd_op` 011 (R78). -/
def execReserved011 (s : State) : Result := illegalCommand s

/-- `cmd_op` 101 (R78). -/
def execReserved101 (s : State) : Result := illegalCommand s

/-- `cmd_op` 110 (R78). -/
def execReserved110 (s : State) : Result := illegalCommand s

/-- `cmd_op` 111 (R78). -/
def execReserved111 (s : State) : Result := illegalCommand s

/-- The MAE's port driven by itself: `mae_r` shows the result and no state of the block changes (R90;
log entry 3). -/
def driveMae (op : MaeOp) (a b : Word) (s : State) : Result := orAddRefused (mae op a b) (fun v => { s with maeR := v })

/-- MAE.ADD (R92); refused for `a` of `P` or more, where the spec defines no result (93 U1). -/
def execMaeAdd (a b : Word) (s : State) : Result := driveMae .add a b s

/-- MAE.MUL (R93). -/
def execMaeMul (a b : Word) (s : State) : Result := driveMae .mul a b s

/-- MAE.SBOX (R94). -/
def execMaeSbox (a b : Word) (s : State) : Result := driveMae .sbox a b s

end Sys2Proof.Machine
end

