-- ==== Sys2Proof/Machine/Sequencer.lean ====
section
/-! DEFINITION. The command START and the sequencer's micro-operations (spec/41_sequencer_ops.md R111 to
R118). Every right-hand side reads the state as it was at the start of the step (00_scope.md R13). -/

namespace Sys2Proof.Machine

/-- START (R111): the count, a zero digest, and the first CHECK; lanes, `RND`, `R` and the fault registers
keep their values. Field `b` is ignored (30_encoding.md R81). -/
def execStart (n : Word) (s : State) : Result :=
  accept s (orDigestFault (memWrite s.d 0 (zeroBytes digestBytes)) fun d =>
    { s with n := n, i := 0, d := d, done := false, ph := .check })

/-- The hold of `PH` = `IDLE` (R118): all state is kept (60_exceptions.md R167). -/
def execIdle (s : State) : Result := .next s

/-- CHECK (R112). -/
def execCheck (s : State) : Result :=
  whenPhase .check s (.next (if s.i = s.n then { s with done := true, ph := .idle } else { s with ph := .unpack }))

/-- The lane chunk `j` of the digest register holds, reduced modulo `P` (R113). -/
def chunkLane (m : Memory) (j : Nat) : Option Word := (memRead m (laneBytes * j) laneBytes).map fun b => reduce (le64 b)

/-- UNPACK (R113): bytes 24 to 31 are not read. -/
def execUnpack (s : State) : Result :=
  whenPhase .unpack s
    (match chunkLane s.d 0, chunkLane s.d 1, chunkLane s.d 2 with
    | some v0, some v1, some v2 => .next { s with lanes := { l0 := v0, l1 := v1, l2 := v2 }, rnd := 0, ph := .keyadd }
    | _, _, _ => .fault .digestAddress)

/-- KEYADD (R114): the lane is the first operand, the key the literal constant. -/
def execKeyadd (s : State) : Result :=
  whenPhase .keyadd s (orAddRefused (mae .add s.lanes.l0 (roundKey s.rnd)) fun v =>
    { s with lanes := { s.lanes with l0 := v }, ph := .sboxl })

/-- SBOXL (R115): the operand may be unreduced, the result is reduced. -/
def execSboxl (s : State) : Result :=
  whenPhase .sboxl s (orAddRefused (mae .sbox s.lanes.l0 0) fun v =>
    { s with lanes := { s.lanes with l0 := v }, ph := .mix })

/-- Where the sequencer goes after MIX (R116): from the last round to PACK, else to the next round. -/
def afterMix (s : State) : State :=
  if s.rnd = lastRound then { s with ph := .pack } else { s with rnd := s.rnd + 1, ph := .keyadd }

/-- MIX (R116). -/
def execMix (s : State) : Result :=
  whenPhase .mix s (orAddRefused (mixLanes s.lanes) fun t => afterMix { s with lanes := t })

/-- The digest register with the three lanes written little-endian at 0, 8 and 16 (R117). -/
def packLanes (m : Memory) (t : Lanes) : Option Memory := do
  let m0 ← memWrite m (laneBytes * 0) (bytesLe64 t.l0)
  let m1 ← memWrite m0 (laneBytes * 1) (bytesLe64 t.l1)
  memWrite m1 (laneBytes * 2) (bytesLe64 t.l2)

/-- PACK (R117): bytes 24 to 31 are not written. -/
def execPack (s : State) : Result :=
  whenPhase .pack s (orDigestFault (packLanes s.d s.lanes) fun d => { s with d := d, i := incrementI s.i, ph := .check })

end Sys2Proof.Machine
end

