-- ==== Sys2Proof/Machine/Dispatch.lean ====
section
/-! DEFINITION. One arm per operation, each one call of its meaning. -/

namespace Sys2Proof.Machine

/-- The effect of an operation. A field the operation ignores does not reach its meaning. -/
def exec (i : Instr) (s : State) : Host.Outcome State Fault Refusal :=
  match i with
  | .add a b => Sys2Proof.Machine.execAdd a b s
  | .mul a b => Sys2Proof.Machine.execMul a b s
  | .sbox a b => Sys2Proof.Machine.execSbox a b s
  | .reserved011 _ _ => Sys2Proof.Machine.execReserved011 s
  | .start n _ => Sys2Proof.Machine.execStart n s
  | .reserved101 _ _ => Sys2Proof.Machine.execReserved101 s
  | .reserved110 _ _ => Sys2Proof.Machine.execReserved110 s
  | .reserved111 _ _ => Sys2Proof.Machine.execReserved111 s
  | .maeAdd a b => Sys2Proof.Machine.execMaeAdd a b s
  | .maeMul a b => Sys2Proof.Machine.execMaeMul a b s
  | .maeSbox a b => Sys2Proof.Machine.execMaeSbox a b s
  | .idle => Sys2Proof.Machine.execIdle s
  | .check => Sys2Proof.Machine.execCheck s
  | .unpack => Sys2Proof.Machine.execUnpack s
  | .keyadd => Sys2Proof.Machine.execKeyadd s
  | .sboxl => Sys2Proof.Machine.execSboxl s
  | .mix => Sys2Proof.Machine.execMix s
  | .pack => Sys2Proof.Machine.execPack s

end Sys2Proof.Machine
end

