-- ==== Sys2Proof/Machine/Fetch.lean ====
section
/-! DEFINITION. Which operation the coming step runs (spec/00_scope.md R15, 10_state.md R37), and where a
word is put so that the coming step runs it. The block fetches nothing from a memory (10_state.md R24). -/

namespace Sys2Proof.Machine

/-- The word of the operation of the coming step, reset apart: with `BUSY = 1` the phase; with `READY = 1`
a command if one is presented (30_encoding.md R86); else the MAE port if it is driven by itself; else the
hold of `IDLE`. -/
def State.fetch (s : State) : Wire :=
  if s.busy then .phase s.ph.code
  else if s.ready && s.pins.cmdValid then .cmd s.pins.word
  else
    match s.pins.mae with
    | some m => .mae m.word
    | none => .phase s.ph.code

/-- The state in which the coming step runs the word: a command on the port of a ready block, the MAE port
driven on an idle block, or the phase register. -/
def State.place (s : State) : Wire → State
  | .cmd w => { s with ph := .idle, err := false, ecode := .noFault, tape := Pins.ofWord w :: s.tape }
  | .mae w => { s with ph := .idle, tape := { Pins.quiet with mae := some (MaeDrive.ofWord w) } :: s.tape }
  | .phase w =>
    match Phase.ofCode w with
    | some p => { s with ph := p, tape := Pins.quiet :: s.tape }
    | none => s

end Sys2Proof.Machine
end

