-- ==== Sys2Proof/Machine/Step.lean ====
section
/-! DEFINITION. One step of the block (spec/00_scope.md R15): a reset, which has priority over everything
(60_exceptions.md R155), or the operation the state selects. Each step takes one entry of the tape. -/

namespace Sys2Proof.Machine

/-- One step. -/
def step (s : State) : Host.Outcome State Fault Refusal :=
  if s.pins.rst then .next (takeReset s)
  else
    match decode s.fetch with
    | .ok i => exec i s.advance
    | .error e => .refused (.undefinedEncoding e)

/-- The state in which the coming step runs the operation whose word is `w`, numbered as
spec/opcode_table.json numbers it; a word that is none changes nothing. -/
def State.withFetchWord (s : State) (nbits w : Nat) : State :=
  match tableWire nbits w with
  | some x => s.place x
  | none => s

end Sys2Proof.Machine
end

