-- ==== Sys2Proof/Machine/Functions.lean ====
section
/-! DEFINITION. The source's pure functions `unpack`, `pack`, `round`, `permute` and the driver
(spec/41_sequencer_ops.md R120 to R124), which the micro-operations are held to (R125). A byte sequence
that is not 32 long has no result (log entry 13). -/

namespace Sys2Proof.Machine

/-- Chunk `j` of a digest: bytes `8j` to `8j+7`. -/
def digestChunk (d : List Byte) (j : Nat) : List Byte := (d.drop (laneBytes * j)).take laneBytes

/-- `unpack(d)` (R120). -/
def unpackFn (d : List Byte) : Option Lanes :=
  if d.length = digestBytes then
    some { l0 := reduce (le64 (digestChunk d 0)), l1 := reduce (le64 (digestChunk d 1)), l2 := reduce (le64 (digestChunk d 2)) }
  else none

/-- `pack(s)` (R121). -/
def packFn (t : Lanes) : List Byte := bytesLe64 t.l0 ++ bytesLe64 t.l1 ++ bytesLe64 t.l2 ++ zeroBytes laneBytes

/-- `round(s, k)` (R122). -/
def roundFn (t : Lanes) (k : Word) : Option Lanes := do
  let v ← mae .add t.l0 k
  let u ← mae .sbox v 0
  mixLanes { t with l0 := u }

/-- `permute(d)` (R123). -/
def permuteFn (d : List Byte) : Option (List Byte) := do
  let s0 ← unpackFn d
  let s1 ← roundFn s0 (roundKey 0)
  let s2 ← roundFn s1 (roundKey 1)
  let s3 ← roundFn s2 (roundKey 2)
  return packFn s3

/-- `iterate(n)` (R124). -/
def iterateFn : Nat → Option (List Byte)
  | 0 => some (zeroBytes digestBytes)
  | n + 1 => (iterateFn n).bind permuteFn

end Sys2Proof.Machine
end

