-- ==== Sys2Proof/Machine/Runs.lean ====
section
/-! DEFINITION. Steps one after another: a number of steps, a run of the sequencer and its end
(spec/70_reset_and_hazards.md R186), and the host that keeps its wires as they are until it sees what it
waits for (R175, 30_encoding.md R86). -/

namespace Sys2Proof.Machine

/-- `steps` steps of the block, stopping where it stops. -/
def runSteps : Nat → State → Result
  | 0, s => .next s
  | k + 1, s =>
    match step s with
    | .next s' => runSteps k s'
    | .fault f => .fault f
    | .refused r => .refused r

/-- No reset in the next `k` steps. -/
def State.noReset (s : State) (k : Nat) : Prop := ∀ p ∈ s.tape.take k, p.rst = false

/-- The coming step accepts START (41_sequencer_ops.md R111). A faulted block accepts none, so no run starts
from it (R186). -/
def State.acceptsStart (s : State) : Prop := s.pins.rst = false ∧ s.ready = true ∧ s.pins.cmdValid = true ∧ s.pins.cmdOp = 0b100#3

/-- `PH = IDLE` and `DONE = 1`, what the boundary that ends a run shows (R186). Other states show it too, a
block that faulted after a run among them: that a run is over at a state is `runEndsAt`. -/
def State.showsRunEnd (s : State) : Prop := s.ph = .idle ∧ s.done = true

/-- R186: the run started by the acceptance of START in the coming step of `s` is over at `t`, `k` steps on:
the FIRST later step boundary that shows `PH = IDLE` and `DONE = 1`. A reset would end the run itself (R172),
so there is none on the way. -/
def runEndsAt (s : State) (k : Nat) (t : State) : Prop :=
  s.acceptsStart ∧ s.noReset k ∧ 1 ≤ k ∧ runSteps k s = .next t ∧ t.showsRunEnd ∧
    ∀ j u, 1 ≤ j → j < k → runSteps j s = .next u → ¬ u.showsRunEnd

/-- The result of a run that is over at this state: the value of `D` there (R186). -/
def State.runResult (s : State) : List Byte := s.d.digest

/-- How far a waiting host has come. -/
inductive HostWait where
  /-- The block is in a state the host waited for. -/
  | reached (s : State)
  /-- The steps given to the wait are over, and the host still waits (log entry 17). -/
  | waiting (s : State)
  /-- The block answered no next state. -/
  | stopped
  deriving DecidableEq, Repr

/-- The host keeps the wires at `p`, step after step, until `seen` holds of the block; at most `fuel` steps
(log entry 17). -/
def holdUntil (p : Pins) (seen : State → Bool) : Nat → State → HostWait
  | 0, s => if seen s then .reached s else .waiting s
  | fuel + 1, s =>
    if seen s then .reached s
    else
      match step { s with tape := [p] } with
      | .next t => holdUntil p seen fuel t
      | .fault _ => .stopped
      | .refused _ => .stopped

end Sys2Proof.Machine
end

