-- ==== Sys2Proof/Machine/Adapters.lean ====
section
/-! DEFINITION. The boundary adapters, outside the block (spec/42_boundary_adapters.md R140 to R146): the
input decoder, the output emitter, and the whole pipeline, as a function and on the block. -/

namespace Sys2Proof.Machine

/-- `InputLengthError` (R142): it names the length received, and the spec gives no more of its text. -/
structure InputLengthError where
  received : Nat
  deriving DecidableEq, Repr

/-- `decode_n(buf)` (R141). -/
def decodeN (buf : List Byte) : Except InputLengthError Word :=
  if buf.length = 8 then .ok (le64 buf) else .error { received := buf.length }

/-- `emit_words(d)` (R143): word `k` is big-endian from byte `4k`. -/
def emitWords (d : List Byte) : Option (List Word32) :=
  if d.length = digestBytes then some ((List.range 8).map fun k => be32 ((d.drop (4 * k)).take 4)) else none

/-- `hash_words(buf)` by the driver function (R145). -/
def hashWords (buf : List Byte) : Except InputLengthError (Option (List Word32)) :=
  match decodeN buf with
  | .ok n => .ok ((iterateFn n.toNat).bind emitWords)
  | .error e => .error e

/-- The state with `START n` presented at the coming step and nothing driven after it. -/
def State.presentStart (s : State) (n : Word) : State := { s with tape := [Pins.ofCommand 0b100#3 n 0] }

/-- DONE, as the host observes it: bit 2 of `status` (10_state.md R32). -/
def State.showsDone (s : State) : Bool := s.observe.status.getLsbD 2

/-- How the pipeline on the block comes out. -/
inductive PipelineEnd where
  /-- The words written to the output slots. -/
  | emitted (ws : List Word32)
  /-- The buffer has another length: the host aborts before anything reaches the block (R142). -/
  | aborted (e : InputLengthError)
  /-- The host still waits after the steps it was given (log entry 17); for a block that never gets `READY`
  it waits for ever. -/
  | waiting
  /-- The block answered no next state. -/
  | stopped
  deriving DecidableEq, Repr

/-- `issue START n; wait until DONE = 1; d <- digest_out; emit_words(d)` (R145): the host holds START on the
port until `READY = 1`, so that the step that comes then accepts it (30_encoding.md R86,
70_reset_and_hazards.md R175), and from the acceptance on observes until `DONE = 1`. -/
def runPipeline (fuel : Nat) (n : Word) (s : State) : PipelineEnd :=
  match holdUntil (Pins.ofCommand 0b100#3 n 0) State.ready fuel s with
  | .waiting _ => .waiting
  | .stopped => .stopped
  | .reached t =>
    match step (t.presentStart n) with
    | .fault _ => .stopped
    | .refused _ => .stopped
    | .next u =>
      match holdUntil Pins.quiet State.showsDone fuel u with
      | .waiting _ => .waiting
      | .stopped => .stopped
      | .reached v =>
        match emitWords (digestOutBytes v.observe.digestOut) with
        | some ws => .emitted ws
        | none => .stopped

/-- `hash_words(buf)` on the block (R145), from any state of it. -/
def hashWordsOnBlock (fuel : Nat) (buf : List Byte) (s : State) : PipelineEnd :=
  match decodeN buf with
  | .error e => .aborted e
  | .ok n => runPipeline fuel n s

end Sys2Proof.Machine
end

