-- ==== Sys2Proof/Machine/Script.lean ====
section
/-! DEFINITION. Host scripts (spec/30_encoding.md R84, R85): the lines, the pseudo-instructions, and the host
that executes a script against the block, deciding at each step from what it observes. -/

namespace Sys2Proof.Machine

/-- A name of a `SAVE`. -/
abbrev ScriptName := List Char

/-- `opnd`: a number, the value of `res` now, or a saved value. -/
inductive Opnd where
  | num (v : Word)
  | res
  | saved (x : ScriptName)
  deriving DecidableEq, Repr

/-- `what` an EXPECT is about. -/
inductive What where
  | r
  | status
  | digest
  | word (k : Nat)
  deriving DecidableEq, Repr

/-- A line of a script. -/
inductive Line where
  | add (a b : Opnd)
  | mul (a b : Opnd)
  | sbox (a : Opnd)
  | start (a : Opnd)
  | raw (op : BitVec 3) (a b : Opnd)
  | save (x : ScriptName)
  | wait
  | expect (w : What) (v : Nat)
  | reset
  | comment
  deriving DecidableEq, Repr

/-- `HASH n` is `START n` then `WAIT` (R85). -/
def Line.hash (n : Opnd) : List Line := [.start n, .wait]

/-- `SQR x` is `MUL x, x` (R85). -/
def Line.sqr (x : Opnd) : List Line := [.mul x x]

/-- The host in the middle of a script: the block, and what SAVE recorded, latest first. -/
structure HostRun where
  block : State
  saved : List (ScriptName × Word)
  deriving DecidableEq, Repr

/-- How a script comes out. -/
inductive ScriptEnd where
  /-- Every line is done. -/
  | finished (h : HostRun)
  /-- The host still waits after the steps it was given; for a block that never gets `READY` it waits for
  ever. -/
  | waiting (h : HostRun)
  /-- An observation does not show what an EXPECT states. -/
  | unmet (w : What) (v : Nat)
  /-- An operand names a value no SAVE recorded, or an EXPECT a word that is none; the script language
  gives it no meaning (log entry 15). -/
  | noMeaning
  /-- The block answered no next state. -/
  | stopped
  deriving Repr

/-- One step of the block with the given input wires. -/
def HostRun.drive (p : Pins) (h : HostRun) : Option HostRun :=
  match step { h.block with tape := [p] } with
  | .next s => some { h with block := s }
  | .fault _ => none
  | .refused _ => none

/-- The host observes, step after step with nothing driven, until `stop` holds of `status`, and goes on
with `k`; at most `fuel` steps (log entry 15). -/
def HostRun.waitFor (stop : BitVec 8 → Bool) (k : HostRun → ScriptEnd) (fuel : Nat) (h : HostRun) : ScriptEnd :=
  match holdUntil Pins.quiet (fun s => stop s.observe.status) fuel h.block with
  | .reached s => k { h with block := s }
  | .waiting s => .waiting { h with block := s }
  | .stopped => .stopped

/-- `status` bit 0, READY. -/
def statusReady (v : BitVec 8) : Bool := v.getLsbD 0

/-- `status` bit 0 or bit 3, what WAIT waits for (R85). -/
def statusReadyOrErr (v : BitVec 8) : Bool := v.getLsbD 0 || v.getLsbD 3

/-- The latest value saved under a name. -/
def lookupSaved : List (ScriptName × Word) → ScriptName → Option Word
  | [], _ => none
  | (y, v) :: l, x => if x = y then some v else lookupSaved l x

/-- The value of an operand at the moment the command is presented. -/
def HostRun.value (h : HostRun) : Opnd → Option Word
  | .num v => some v
  | .res => some h.block.observe.res
  | .saved x => lookupSaved h.saved x

/-- What an observation shows of `what`; a digest as the number its 64 hex digits write, byte 0 first. -/
def HostRun.shows (h : HostRun) : What → Option Nat
  | .r => some h.block.observe.res.toNat
  | .status => some h.block.observe.status.toNat
  | .digest => some (beNat (digestOutBytes h.block.observe.digestOut))
  | .word k => do
    let ws ← emitWords (digestOutBytes h.block.observe.digestOut)
    (ws[k]?).map BitVec.toNat

/-- A command line: the host waits until `READY = 1`, then presents the command and the block accepts it. -/
def HostRun.command (fuel : Nat) (op : BitVec 3) (a b : Opnd) (h : HostRun) (k : HostRun → ScriptEnd) : ScriptEnd :=
  h.waitFor statusReady (fun h =>
    match h.value a, h.value b with
    | some va, some vb =>
      match h.drive (Pins.ofCommand op va vb) with
      | some h' => k h'
      | none => .stopped
    | _, _ => .noMeaning) fuel

/-- One line, then the rest of the script. -/
def HostRun.line (fuel : Nat) (h : HostRun) (k : HostRun → ScriptEnd) : Line → ScriptEnd
  | .add a b => h.command fuel 0b000#3 a b k
  | .mul a b => h.command fuel 0b001#3 a b k
  | .sbox a => h.command fuel 0b010#3 a (.num 0) k
  | .start a => h.command fuel 0b100#3 a (.num 0) k
  | .raw op a b => h.command fuel op a b k
  | .save x => k { h with saved := (x, h.block.observe.res) :: h.saved }
  | .wait => h.waitFor statusReadyOrErr k fuel
  | .expect w v =>
    match h.shows w with
    | some v' => if v' = v then k h else .unmet w v
    | none => .noMeaning
  | .reset =>
    match h.drive Pins.reset with
    | some h' => k h'
    | none => .stopped
  | .comment => k h

/-- A script, line after line; the host waits at most `fuel` steps at any line (log entry 15). -/
def HostRun.script (fuel : Nat) : List Line → HostRun → ScriptEnd
  | [], h => .finished h
  | l :: ls, h => h.line fuel (fun h' => HostRun.script fuel ls h') l

/-- Every script starts from the reset state (R84). -/
def runScript (fuel : Nat) (ls : List Line) : ScriptEnd := HostRun.script fuel ls { block := State.reset, saved := [] }

end Sys2Proof.Machine
end

