-- ==== Sys2Proof/Machine/ScriptText.lean ====
section
/-! DEFINITION. The text of a host script, read by the grammar of spec/30_encoding.md R84 into the lines of
Machine/Script.lean. Blanks separate words (DESIGN CHOICE, log entry 15). -/

namespace Sys2Proof.Machine

/-- The text up to a comment. -/
def dropComment (cs : List Char) : List Char := cs.takeWhile (· ≠ ';')

/-- A character that ends a word. -/
def isBlank (c : Char) : Bool := c = ' ' || c = '\t'

/-- The words of a line in reverse, with the characters of the one being read in reverse: blanks separate
words, and a comma and an equals sign are words of their own. -/
def scanWords : List Char → List Char → List (List Char) → List (List Char)
  | [], w, ws => if w.isEmpty then ws else w.reverse :: ws
  | c :: cs, w, ws =>
    let ws' := if w.isEmpty then ws else w.reverse :: ws
    if isBlank c then scanWords cs [] ws'
    else if c = ',' || c = '=' then scanWords cs [] ([c] :: ws')
    else scanWords cs (c :: w) ws

/-- The words of a line. -/
def lineWords (cs : List Char) : List (List Char) := (scanWords (dropComment cs) [] []).reverse

/-- The value of a hexadecimal digit. -/
def hexDigit (c : Char) : Option Nat :=
  if '0' ≤ c ∧ c ≤ '9' then some (c.toNat - '0'.toNat)
  else if 'a' ≤ c ∧ c ≤ 'f' then some (c.toNat - 'a'.toNat + 10)
  else if 'A' ≤ c ∧ c ≤ 'F' then some (c.toNat - 'A'.toNat + 10)
  else none

/-- The number that digits write in a base, after those already read. -/
def digitsFrom (base acc : Nat) : List Char → Option Nat
  | [] => some acc
  | c :: cs =>
    match hexDigit c with
    | some v => if v < base then digitsFrom base (acc * base + v) cs else none
    | none => none

/-- `number`: decimal digits, or `0x` and hex digits; less than `2^64`. -/
def parseNumber (cs : List Char) : Option Word :=
  let v :=
    match cs with
    | '0' :: 'x' :: h :: hs => digitsFrom 16 0 (h :: hs)
    | d :: ds => digitsFrom 10 0 (d :: ds)
    | [] => none
  v.bind fun n => if n < 2 ^ 64 then some (BitVec.ofNat 64 n) else none

/-- `opnd`. -/
def parseOpnd : List Char → Option Opnd
  | ['R'] => some .res
  | '$' :: x :: xs => some (.saved (x :: xs))
  | cs => (parseNumber cs).map .num

/-- `what` of an EXPECT. -/
def parseWhat (cs : List Char) : Option What :=
  if cs = "R".toList then some .r
  else if cs = "STATUS".toList then some .status
  else if cs = "DIGEST".toList then some .digest
  else if cs.take 5 = "WORD[".toList ∧ cs.getLast? = some ']' then
    (parseNumber ((cs.drop 5).dropLast)).map fun k => .word k.toNat
  else none

/-- The number an EXPECT states: for DIGEST 64 hex digits. -/
def parseExpected (w : What) (cs : List Char) : Option Nat :=
  match w with
  | .digest => if cs.length = 64 then digitsFrom 16 0 cs else none
  | .r => (parseNumber cs).map BitVec.toNat
  | .status => (parseNumber cs).map BitVec.toNat
  | .word _ => (parseNumber cs).map BitVec.toNat

/-- Two operands with a comma between. -/
def parseTwo (f : Opnd → Opnd → List Line) : List (List Char) → Option (List Line)
  | [a, [','], b] => do return f (← parseOpnd a) (← parseOpnd b)
  | _ => none

/-- One operand. -/
def parseOne (f : Opnd → List Line) : List (List Char) → Option (List Line)
  | [a] => do return f (← parseOpnd a)
  | _ => none

/-- `RAW number, opnd, opnd`, the number 0 to 7. -/
def parseRaw : List (List Char) → Option (List Line)
  | n :: [','] :: rest => do
    let op ← parseNumber n
    if op.toNat < 8 then parseTwo (fun a b => [.raw (BitVec.ofNat 3 op.toNat) a b]) rest else none
  | _ => none

/-- `EXPECT what = number`. -/
def parseExpect : List (List Char) → Option (List Line)
  | [w, ['='], v] => do
    let w' ← parseWhat w
    return [.expect w' (← parseExpected w' v)]
  | _ => none

/-- `SAVE name`. -/
def parseSave : List (List Char) → Option (List Line)
  | [x] => some [.save x]
  | _ => none

/-- A word alone on its line. -/
def parseAlone (l : Line) : List (List Char) → Option (List Line)
  | [] => some [l]
  | _ => none

/-- The lines a text line stands for (a pseudo-instruction for its expansion, R85), `none` where the
grammar has no such line. A line with no words, empty or of blanks alone, is read as a comment; the grammar of
R84 says nothing of such a line: DESIGN CHOICE, log entry 15. -/
def parseLine (cs : List Char) : Option (List Line) :=
  match lineWords cs with
  | [] => some [.comment]
  | head :: rest =>
    if head = "ADD".toList then parseTwo (fun a b => [.add a b]) rest
    else if head = "MUL".toList then parseTwo (fun a b => [.mul a b]) rest
    else if head = "SBOX".toList then parseOne (fun a => [.sbox a]) rest
    else if head = "START".toList then parseOne (fun a => [.start a]) rest
    else if head = "RAW".toList then parseRaw rest
    else if head = "SAVE".toList then parseSave rest
    else if head = "WAIT".toList then parseAlone .wait rest
    else if head = "EXPECT".toList then parseExpect rest
    else if head = "RESET".toList then parseAlone .reset rest
    else if head = "HASH".toList then parseOne Line.hash rest
    else if head = "SQR".toList then parseOne Line.sqr rest
    else none

/-- A script from its text lines. -/
def parseScript : List (List Char) → Option (List Line)
  | [] => some []
  | l :: ls => do return (← parseLine l) ++ (← parseScript ls)

end Sys2Proof.Machine
end

