-- ==== Sys2Proof/Machine/Timing.lean ====
section
/-! DEFINITION. Timing information (spec/70_reset_and_hazards.md R183, R184; 00_scope.md R8): no meaning
reads it. Clock cycles are the open parameter `CYC`. -/

namespace Sys2Proof.Machine

/-- The kind of step an operation is, for `CYC` (92_eei_decisions.md D26); a hold and an MAE operation by
itself are no step kinds. -/
def stepKind : Instr → Option StepKind
  | .add _ _ => some .add
  | .mul _ _ => some .mul
  | .sbox _ _ => some .sbox
  | .reserved011 _ _ => some .illegal
  | .start _ _ => some .start
  | .reserved101 _ _ => some .illegal
  | .reserved110 _ _ => some .illegal
  | .reserved111 _ _ => some .illegal
  | .maeAdd _ _ => none
  | .maeMul _ _ => none
  | .maeSbox _ _ => none
  | .idle => none
  | .check => some .check
  | .unpack => some .unpack
  | .keyadd => some .keyadd
  | .sboxl => some .sboxl
  | .mix => some .mix
  | .pack => some .pack

/-- The clock cycles of the coming step: `CYC` of its kind; one edge for a reset (R170), none counted for
a step of no kind. -/
def State.cycles (s : State) : Nat :=
  if s.pins.rst then 1
  else
    match decode s.fetch with
    | .ok i => ((stepKind i).map Config.cyc).getD 0
    | .error _ => 0

/-- The clock cycles of the next `k` steps, as far as the block goes on. -/
def runCycles : Nat → State → Nat
  | 0, _ => 0
  | k + 1, s =>
    s.cycles +
      match step s with
      | .next s' => runCycles k s'
      | .fault _ => 0
      | .refused _ => 0

/-- How often a micro-operation uses the MAE (R184; an S-box counts as three multiplications). -/
structure EngineUse where
  adds : Nat
  muls : Nat
  reductions : Nat
  deriving DecidableEq, Repr

/-- The use of the micro-operation that a phase selects (R184). -/
def Phase.engineUse : Phase → EngineUse
  | .idle => { adds := 0, muls := 0, reductions := 0 }
  | .check => { adds := 0, muls := 0, reductions := 0 }
  | .unpack => { adds := 0, muls := 0, reductions := 3 }
  | .keyadd => { adds := 1, muls := 0, reductions := 0 }
  | .sboxl => { adds := 0, muls := 3, reductions := 0 }
  | .mix => { adds := 6, muls := 2, reductions := 0 }
  | .pack => { adds := 0, muls := 0, reductions := 0 }

/-- The sum of two uses. -/
def EngineUse.plus (u v : EngineUse) : EngineUse where
  adds := u.adds + v.adds
  muls := u.muls + v.muls
  reductions := u.reductions + v.reductions

/-- The uses of the next `k` steps, as far as the block goes on. -/
def runUse : Nat → State → EngineUse
  | 0, _ => { adds := 0, muls := 0, reductions := 0 }
  | k + 1, s =>
    s.ph.engineUse.plus
      (match step s with
      | .next s' => runUse k s'
      | .fault _ => { adds := 0, muls := 0, reductions := 0 }
      | .refused _ => { adds := 0, muls := 0, reductions := 0 })

end Sys2Proof.Machine
end

