-- ==== Sys2Proof/Safety.lean ====
section
/-! DEFINITION. What a state of an execution is like (spec/10_state.md R22, R34, R42), and when
the block is faulted (60_exceptions.md R153), in the terms claims use. -/

namespace Sys2Proof.Machine

/-- The invariants of 10_state.md R42 that the types do not already carry (R42 (b) and (c) are in the types
of `rnd` and `ph`). -/
structure Inv (s : State) : Prop where
  /-- The digest register is in its one form (log entry 12). -/
  memory : s.d.wf = true
  /-- R22: lanes 1 and 2 are reduced. -/
  lane1 : s.lanes.l1.toNat < modulus
  lane2 : s.lanes.l2.toNat < modulus
  /-- R22: lane 0 is reduced except between KEYADD and SBOXL. -/
  lane0 : s.ph ≠ .sboxl → s.lanes.l0.toNat < modulus
  /-- R36: the bound of the unreduced lane. -/
  lane0Unreduced : s.ph = .sboxl → s.lanes.l0.toNat ≤ 0xFEDCBA0987654320
  /-- R34: the digest tail is zero. -/
  tail : ∀ a, 24 ≤ a → s.d.read a = 0
  /-- R34: every stored lane is reduced. -/
  chunks : ∀ j, j < 3 → leNat (digestChunk s.d.digest j) < modulus
  /-- R42 (i). -/
  result : s.r.toNat < modulus
  /-- R42 (a). -/
  count : s.i.toNat ≤ s.n.toNat
  /-- R24: past CHECK there is a permutation still to be done. -/
  running : s.ph ≠ .idle → s.ph ≠ .check → s.i.toNat < s.n.toNat
  /-- R42 (f). -/
  doneIdle : s.done = true → s.ph = .idle ∧ s.i = s.n
  /-- R42 (g). -/
  errIdle : s.err = true → s.ph = .idle
  /-- R42 (h). -/
  cause : s.ecode ≠ .noFault ↔ s.err = true

/-- Lane `j`. -/
def Lanes.lane (t : Lanes) : Fin 3 → Word
  | 0 => t.l0
  | 1 => t.l1
  | 2 => t.l2

/-- Every lane is a field element. -/
def Lanes.reduced (t : Lanes) : Prop := ∀ j, (t.lane j).toNat < modulus

/-- The number bytes `8j` to `8j+7` of the digest register hold, least significant byte first (20_memory.md
R52), written out. -/
def Memory.chunkValue (m : Memory) (j : Fin 3) : Nat :=
  (m.read (8 * j)).toNat + (m.read (8 * j + 1)).toNat * 2 ^ 8 + (m.read (8 * j + 2)).toNat * 2 ^ 16 +
    (m.read (8 * j + 3)).toNat * 2 ^ 24 + (m.read (8 * j + 4)).toNat * 2 ^ 32 + (m.read (8 * j + 5)).toNat * 2 ^ 40 +
    (m.read (8 * j + 6)).toNat * 2 ^ 48 + (m.read (8 * j + 7)).toNat * 2 ^ 56

/-- The coming step accepts an engine command: `op[2]` is 0 and `op` is not 011 (30_encoding.md R75). -/
def State.acceptsEngine (s : State) : Prop :=
  s.pins.rst = false ∧ s.ready = true ∧ s.pins.cmdValid = true ∧ s.pins.cmdOp.toNat ≤ 2

/-- The coming step accepts a command that faults with this code (60_exceptions.md R150). -/
def State.acceptsFaulting (s : State) : ECode → Prop
  | .noFault => False
  | .illCmd =>
    s.pins.rst = false ∧ s.ready = true ∧ s.pins.cmdValid = true ∧ s.pins.cmdOp ∈ [0b011#3, 0b101#3, 0b110#3, 0b111#3]
  | .domain =>
    s.acceptsEngine ∧ (modulus ≤ s.pins.cmdA.toNat ∨ (s.pins.cmdOp ≠ 0b010#3 ∧ modulus ≤ s.pins.cmdB.toNat))

/-- Two states that differ at most in the lanes and the digest register. -/
def State.sameControl (s t : State) : Prop := { t with lanes := s.lanes, d := s.d } = s

/-- The faulted state: `READY` and `BUSY` both 0 (10_state.md R37). -/
def State.faulted (s : State) : Prop := s.ph = .idle ∧ s.err = true

/-- The MAE port is not driven by itself at the coming step. -/
def State.maeIdle (s : State) : Prop := s.pins.mae = none

/-- The MAE port, if driven by itself at the coming step, is driven inside its domain (40_engine_ops.md R91,
30_encoding.md R79). -/
def State.maeInDomain (s : State) : Prop :=
  ∀ m, s.pins.mae = some m → m.op ≠ 0b11#2 ∧ (m.op = 0b00#2 → m.a.toNat < modulus)

/-- A command is accepted at the coming step (30_encoding.md R86; reset has priority, 60_exceptions.md
R155). -/
def State.accepts (s : State) : Prop := s.pins.rst = false ∧ s.ready = true ∧ s.pins.cmdValid = true

end Sys2Proof.Machine
end

