-- ==== Sys2Proof/Certificates/Slice0/Obligations.lean ====
section
/-! DEFINITION. The statements for the provers. An equation `exec i s = .next { s with … }` says the effect
and the frame at once: every field not named is unchanged. -/

open Sys2Proof Sys2Proof.Machine

/-! ### The engine commands and the reserved commands -/

/-- 40_engine_ops.md R95. -/
def Obligations.AddCommandSetsResultOrFaults : Prop :=
  ∀ (s : State) (a b : Word), decode (.cmd (commandWord 0b000#3 a b)) = .ok (.add a b) ∧
    (s.ready = true → a.toNat < modulus → b.toNat < modulus →
      exec (.add a b) s = .next { s with r := BitVec.ofNat 64 ((a.toNat + b.toNat) % modulus) }) ∧
    (s.ready = true → modulus ≤ a.toNat ∨ modulus ≤ b.toNat →
      exec (.add a b) s = .next { s with err := true, ecode := .domain }) ∧
    (s.ready = false → exec (.add a b) s = .next s)

/-- 40_engine_ops.md R96. -/
def Obligations.MulCommandSetsResultOrFaults : Prop :=
  ∀ (s : State) (a b : Word), decode (.cmd (commandWord 0b001#3 a b)) = .ok (.mul a b) ∧
    (s.ready = true → a.toNat < modulus → b.toNat < modulus →
      exec (.mul a b) s = .next { s with r := BitVec.ofNat 64 (a.toNat * b.toNat % modulus) }) ∧
    (s.ready = true → modulus ≤ a.toNat ∨ modulus ≤ b.toNat →
      exec (.mul a b) s = .next { s with err := true, ecode := .domain }) ∧
    (s.ready = false → exec (.mul a b) s = .next s)

/-- 40_engine_ops.md R97; field `b` takes every value. -/
def Obligations.SboxCommandSetsFifthPowerOrFaults : Prop :=
  ∀ (s : State) (a b : Word), decode (.cmd (commandWord 0b010#3 a b)) = .ok (.sbox a b) ∧
    (s.ready = true → a.toNat < modulus →
      exec (.sbox a b) s = .next { s with r := BitVec.ofNat 64 (a.toNat ^ 5 % modulus) }) ∧
    (s.ready = true → modulus ≤ a.toNat → exec (.sbox a b) s = .next { s with err := true, ecode := .domain }) ∧
    (s.ready = false → exec (.sbox a b) s = .next s)

/-- 30_encoding.md R78, 60_exceptions.md R151: each of the four reserved commands, whatever its fields. -/
def Obligations.ReservedCommandsTakeIllegalFault : Prop :=
  ∀ (s : State) (a b : Word), ∀ x ∈ [(0b011#3, Instr.reserved011 a b), (0b101#3, .reserved101 a b),
      (0b110#3, .reserved110 a b), (0b111#3, .reserved111 a b)],
    decode (.cmd (commandWord x.1 a b)) = .ok x.2 ∧
    (s.ready = true → exec x.2 s = .next { s with err := true, ecode := .illCmd }) ∧
    (s.ready = false → exec x.2 s = .next s)

/-- 30_encoding.md R81: fields an operation ignores take every value with no effect. -/
def Obligations.IgnoredFieldsHaveNoEffect : Prop :=
  ∀ (s : State) (a b a' b' : Word),
    exec (.sbox a b) s = exec (.sbox a b') s ∧ exec (.start a b) s = exec (.start a b') s ∧
    exec (.reserved011 a b) s = exec (.reserved011 a' b') s ∧ exec (.reserved101 a b) s = exec (.reserved101 a' b') s ∧
    exec (.reserved110 a b) s = exec (.reserved110 a' b') s ∧ exec (.reserved111 a b) s = exec (.reserved111 a' b') s

/-- 41_sequencer_ops.md R111: every byte of the digest register is stored to. -/
def Obligations.StartCommandBeginsRun : Prop :=
  ∀ (s : State) (n b : Word), decode (.cmd (commandWord 0b100#3 n b)) = .ok (.start n b) ∧
    (s.ready = true → ∃ t, exec (.start n b) s = .next t ∧
      t = { s with n := n, i := 0, d := t.d, done := false, ph := .check } ∧
      (∀ a, a < 32 → t.d.read a = 0) ∧ (∀ a, 32 ≤ a → t.d.read a = s.d.read a) ∧
      (s.d.wf = true → t.d.wf = true) ∧ t.ready = false ∧ t.busy = true) ∧
    (s.ready = false → exec (.start n b) s = .next s)

/-! ### The MAE -/

/-- 40_engine_ops.md R92: the algorithm, its range, and its guarantees. -/
def Obligations.AddAlgorithmSubtractsModulusOnce : Prop :=
  ∀ (a b : Word), a.toNat < modulus → decode (.mae (maeWord 0b00#2 a b)) = .ok (.maeAdd a b) ∧
    ∃ v, mae .add a b = some v ∧
    v.toNat = (if modulus ≤ a.toNat + b.toNat then a.toNat + b.toNat - modulus else a.toNat + b.toNat) ∧
    v.toNat ≤ 2 ^ 64 - 2 ∧
    (b.toNat < modulus → v.toNat < modulus ∧ v.toNat = (a.toNat + b.toNat) % modulus ∧ mae .add b a = some v) ∧
    (modulus ≤ b.toNat → v.toNat % modulus = (a.toNat + b.toNat) % modulus ∧
      (modulus ≤ v.toNat ↔ 2 * modulus ≤ a.toNat + b.toNat))

/-- 40_engine_ops.md R93 and R94, on every 64-bit operand. -/
def Obligations.MulAndSboxReduceFully : Prop :=
  ∀ (a b : Word), decode (.mae (maeWord 0b01#2 a b)) = .ok (.maeMul a b) ∧
    decode (.mae (maeWord 0b10#2 a b)) = .ok (.maeSbox a b) ∧
    (∃ v, mae .mul a b = some v ∧ v.toNat = a.toNat * b.toNat % modulus ∧ v.toNat < modulus ∧
      mae .mul b a = some v ∧ mae .mul (BitVec.ofNat 64 (a.toNat % modulus)) (BitVec.ofNat 64 (b.toNat % modulus)) = some v) ∧
    (∃ v, mae .sbox a b = some v ∧ v.toNat = a.toNat ^ 5 % modulus ∧ v.toNat < modulus ∧
      mae .sbox (BitVec.ofNat 64 (a.toNat % modulus)) b = some v)

/-- Format E by itself (40_engine_ops.md R90): the result is shown in `maeR` and no state of the block
changes. Where it is shown is the model's choice (log entry 3); MAE.ADD outside its domain stops, as
93_implementation_defined.md U1 asks. -/
def Obligations.MaeDrivenAloneShowsResult : Prop :=
  ∀ (s : State) (a b : Word),
    (a.toNat < modulus → ∃ v, exec (.maeAdd a b) s = .next { s with maeR := v } ∧
      v.toNat = (if modulus ≤ a.toNat + b.toNat then a.toNat + b.toNat - modulus else a.toNat + b.toNat)) ∧
    (modulus ≤ a.toNat → exec (.maeAdd a b) s = .refused .addOutsideDomain) ∧
    exec (.maeMul a b) s = .next { s with maeR := BitVec.ofNat 64 (a.toNat * b.toNat % modulus) } ∧
    exec (.maeSbox a b) s = .next { s with maeR := BitVec.ofNat 64 (a.toNat ^ 5 % modulus) }

/-- 40_engine_ops.md R99. -/
def Obligations.EngineKeepsFieldElements : Prop :=
  ∀ (a b : Word), a.toNat < modulus → b.toNat < modulus →
    (∃ v, mae .add a b = some v ∧ v.toNat = (a.toNat + b.toNat) % modulus ∧ v.toNat < modulus) ∧
    (∃ v, mae .mul a b = some v ∧ v.toNat = a.toNat * b.toNat % modulus ∧ v.toNat < modulus) ∧
    (∃ v, mae .sbox a b = some v ∧ v.toNat = a.toNat ^ 5 % modulus ∧ v.toNat < modulus)

/-- 40_engine_ops.md R102. -/
def Obligations.UnreducedSumDoesNoHarm : Prop :=
  ∀ (a k u : Word), a.toNat < modulus → mae .add a k = some u →
    u.toNat % modulus = (a.toNat + k.toNat) % modulus ∧
    (∀ c d, mae .sbox u c = mae .sbox (BitVec.ofNat 64 ((a.toNat + k.toNat) % modulus)) d) ∧
    (∀ c, mae .sbox u c = some (BitVec.ofNat 64 ((a.toNat + k.toNat) ^ 5 % modulus))) ∧
    (∀ v c, mae .add a (BitVec.ofNat 64 (k.toNat % modulus)) = some v → mae .sbox v c = mae .sbox u c)

/-- 40_engine_ops.md R103. -/
def Obligations.ModulusIsCompositeAndSboxNotInjective : Prop :=
  modulus = 7 * 7 * 73 * 127 * 337 * 92737 * 649657 ∧ modulus / 7 = 0x1249249249249249 ∧
    0x1249249249249249 ^ 2 = modulus * (modulus / 49) ∧ mae .mul 7#64 0x1249249249249249#64 = some 0 ∧
    mae .mul 0x1249249249249249#64 0x1249249249249249#64 = some 0 ∧
    mae .sbox 0x1249249249249249#64 0 = some 0 ∧ mae .sbox 0 0 = some 0

/-! ### The micro-operations -/

/-- 41_sequencer_ops.md R112. -/
def Obligations.CheckEndsRunOrGoesOn : Prop :=
  decode (.phase 0b001#3) = .ok .check ∧ ∀ s : State, s.ph = .check →
    exec .check s = .next (if s.i = s.n then { s with done := true, ph := .idle } else { s with ph := .unpack })

/-- 41_sequencer_ops.md R113, on every digest. -/
def Obligations.UnpackReducesChunksIntoLanes : Prop :=
  decode (.phase 0b010#3) = .ok .unpack ∧ ∀ s : State, s.ph = .unpack → ∃ v : Lanes,
    exec .unpack s = .next { s with lanes := v, rnd := 0, ph := .keyadd } ∧
    ∀ j, (v.lane j).toNat = s.d.chunkValue j % modulus ∧ (v.lane j).toNat < modulus

/-- 41_sequencer_ops.md R114, with the bounds of 10_state.md R36. -/
def Obligations.KeyaddAddsRoundKeyToLaneZero : Prop :=
  decode (.phase 0b011#3) = .ok .keyadd ∧ ∀ s : State, s.ph = .keyadd → s.lanes.l0.toNat < modulus → ∃ v : Word,
    exec .keyadd s = .next { s with lanes := { s.lanes with l0 := v }, ph := .sboxl } ∧
    (s.rnd = 0 → v.toNat < modulus ∧ v.toNat = (s.lanes.l0.toNat + 0x1234567890ABCDEF) % modulus) ∧
    (s.rnd = 1 → v.toNat = s.lanes.l0.toNat + 0xFEDCBA0987654321 - modulus ∧
      (modulus ≤ v.toNat ↔ 0x012345F6789ABCDD ≤ s.lanes.l0.toNat)) ∧
    (s.rnd = 2 → v.toNat = s.lanes.l0.toNat + 0xDEADBEEFCAFEBABE - modulus ∧
      (modulus ≤ v.toNat ↔ 0x2152411035014540 ≤ s.lanes.l0.toNat)) ∧
    v.toNat ≤ 0xFEDCBA0987654320

/-- In states no run reaches lane 0 may be unreduced at KEYADD, and MIX may have lanes outside the domain of
`add_p`: there the operation stops, as 93_implementation_defined.md U1 asks (log entry 5). -/
def Obligations.AddOutsideDomainStopsSequencer : Prop :=
  ∀ s : State, modulus ≤ s.lanes.l0.toNat →
    (s.ph = .keyadd → exec .keyadd s = .refused .addOutsideDomain) ∧
    (s.ph = .mix → exec .mix s = .refused .addOutsideDomain)

/-- 41_sequencer_ops.md R115, on every value of lane 0. -/
def Obligations.SboxlRaisesLaneZeroToFifthPower : Prop :=
  decode (.phase 0b100#3) = .ok .sboxl ∧ ∀ s : State, s.ph = .sboxl →
    exec .sboxl s =
      .next { s with lanes := { s.lanes with l0 := BitVec.ofNat 64 (s.lanes.l0.toNat ^ 5 % modulus) }, ph := .mix }

/-- 41_sequencer_ops.md R116. -/
def Obligations.MixMultipliesSnapshotByMatrix : Prop :=
  decode (.phase 0b101#3) = .ok .mix ∧ ∀ s : State, s.ph = .mix → s.lanes.reduced → ∃ v : Lanes,
    exec .mix s = .next (if s.rnd = 2 then { s with lanes := v, ph := .pack }
      else { s with lanes := v, rnd := s.rnd + 1, ph := .keyadd }) ∧
    v.l0.toNat = (s.lanes.l0.toNat + s.lanes.l1.toNat + s.lanes.l2.toNat) % modulus ∧
    v.l1.toNat = (s.lanes.l0.toNat + 2 * s.lanes.l1.toNat + s.lanes.l2.toNat) % modulus ∧
    v.l2.toNat = (s.lanes.l0.toNat + s.lanes.l1.toNat + 3 * s.lanes.l2.toNat) % modulus

/-- MIX is the matrix `M` of 00_scope.md R5 applied to the column of lanes. -/
def Obligations.MixSumsAreMatrixRows : Prop :=
  ∀ t : Lanes, t.reduced → ∃ v, mixLanes t = some v ∧
    [v.l0.toNat, v.l1.toNat, v.l2.toNat] =
      mixMatrix.map fun row => (List.zipWith (· * ·) row [t.l0.toNat, t.l1.toNat, t.l2.toNat]).sum % modulus

/-- 41_sequencer_ops.md R117: the bytes stored to are 0 to 23. Where `I` is `2^64 - 1`, which no run reaches
here, everything but `I` is as said. -/
def Obligations.PackWritesLanesLittleEndian : Prop :=
  decode (.phase 0b110#3) = .ok .pack ∧ ∀ s : State, s.ph = .pack → ∃ t, exec .pack s = .next t ∧
    t = { s with d := t.d, i := t.i, ph := .check } ∧
    (s.i.toNat + 1 < 2 ^ 64 → t.i.toNat = s.i.toNat + 1) ∧
    (∀ (j : Fin 3) (k : Nat), k < 8 → t.d.read (8 * j + k) = (s.lanes.lane j).extractLsb' (8 * k) 8) ∧
    (∀ a, 24 ≤ a → t.d.read a = s.d.read a) ∧ (s.d.wf = true → t.d.wf = true)

/-- 41_sequencer_ops.md R118: `PH = IDLE` is a hold, lifted only by the acceptance of START, and with `ERR = 1`
only by reset. -/
def Obligations.IdleHoldsUntilStartIsAccepted : Prop :=
  decode (.phase 0b000#3) = .ok .idle ∧ ∀ s : State, exec .idle s = .next s ∧
    (s.ph = .idle → s.pins.rst = false → s.pins.cmdValid = false → s.maeIdle → step s = .next s.advance) ∧
    (s.ph = .idle → s.pins.rst = false → ∀ t, step s = .next t → t.ph ≠ .idle → s.acceptsStart ∧ s.err = false)

/-- A micro-operation that `PH` does not select changes nothing (the model's reading, log entry 4, of
30_encoding.md R73 and 00_scope.md R15). -/
def Obligations.UnselectedMicroOperationDoesNothing : Prop :=
  ∀ (s : State) (p : Phase) (i : Instr), decode (.phase p.code) = .ok i → s.ph ≠ p → exec i s = .next s

/-- 60_exceptions.md R168. -/
def Obligations.MicroOperationsNeverStopOrFault : Prop :=
  ∀ s : State, s.ph ≠ .idle → s.pins.rst = false →
    (s.ph = .keyadd ∨ s.ph = .mix → s.lanes.reduced) →
    ∃ t, step s = .next t ∧ t.err = s.err ∧ t.ecode = s.ecode

/-! ### Steps -/

/-- A step runs the operation the state selects, with the tape one entry further: the phase when busy, else
the command on the port when ready, else the MAE port driven alone, else the hold (00_scope.md R15,
30_encoding.md R86; the MAE clause is the model's, log entry 3). -/
def Obligations.StepRunsDecodedOperation : Prop :=
  ∀ (s : State) (i : Instr), s.pins.rst = false →
    (s.ph ≠ .idle → decode (.phase s.ph.code) = .ok i → step s = exec i s.advance) ∧
    (s.ready = true → s.pins.cmdValid = true → decode (.cmd s.pins.word) = .ok i → step s = exec i s.advance) ∧
    (∀ m, s.ph = .idle → (s.ready = false ∨ s.pins.cmdValid = false) → s.pins.mae = some m → decode (.mae m.word) = .ok i →
      step s = exec i s.advance) ∧
    (s.ph = .idle → (s.ready = false ∨ s.pins.cmdValid = false) → s.pins.mae = none → step s = exec .idle s.advance)

/-- The word placed for the next step is the one it runs (the model's interface, log entries 2 and 10). -/
def Obligations.PlacedWordRunsNext : Prop :=
  ∀ (s : State) (nbits w : Nat) (i : Instr), decodeTableWord nbits w = some i →
    step (s.withFetchWord nbits w) = exec i (s.withFetchWord nbits w).advance

/-- 70_reset_and_hazards.md R170: whatever the state and whatever else is on the wires. -/
def Obligations.ResetStepGivesResetState : Prop :=
  ∀ s : State, s.pins.rst = true → ∃ t, step s = .next t ∧
    t.lanes.l0 = 0 ∧ t.lanes.l1 = 0 ∧ t.lanes.l2 = 0 ∧ t.r = 0 ∧ (∀ a, t.d.read a = 0) ∧ t.n = 0 ∧ t.i = 0 ∧ t.rnd = 0 ∧
    t.ph = .idle ∧ t.done = false ∧ t.err = false ∧ t.ecode = .noFault ∧ t = { State.reset with tape := s.tape.tail }

/-- 70_reset_and_hazards.md R171, 10_state.md R41. The last clause is a step of the reset state as the model has
it, with an EMPTY tape: that nothing is driven there is the model's choice (DESIGN CHOICE, log entry 1). -/
def Obligations.ObservationAfterReset : Prop :=
  State.reset.observe = { status := 0x01, res := 0, digestOut := 0 } ∧ State.reset.ready = true ∧
    State.reset.done = false ∧ State.reset.ph = .idle ∧ step State.reset = .next State.reset

/-- 30_encoding.md R86: with `READY = 0` what is on the command port does not matter. -/
def Obligations.CommandWhileNotReadyHasNoEffect : Prop :=
  ∀ (s : State) (p : Pins) (rest : List Pins) (v : Bool) (op : BitVec 3) (a b : Word), s.ready = false →
    step { s with tape := { p with cmdValid := v, cmdOp := op, cmdA := a, cmdB := b } :: rest } =
      step { s with tape := p :: rest }

/-- 60_exceptions.md R156, and R153's last words: the faulted state takes no command and has no step of its
own; only reset leaves it, and then everything has its reset value. -/
def Obligations.FaultedBlockIsQuiescentUntilReset : Prop :=
  ∀ s : State, s.faulted →
    (s.pins.rst = false → s.maeIdle → step s = .next s.advance) ∧
    (s.pins.rst = false → ∀ t, step s = .next t → t = { s with maeR := t.maeR, tape := s.tape.tail }) ∧
    (s.pins.rst = true → step s = .next { State.reset with tape := s.tape.tail })

/-- 41_sequencer_ops.md R119, row by row, with the column "Other". -/
def Obligations.SequencerPositionAdvancesByTable : Prop :=
  ∀ s t : State, step s = .next t →
    (s.pins.rst = true → t = { State.reset with tape := s.tape.tail }) ∧
    (s.acceptsStart → (∀ a, a < 32 → t.d.read a = 0) ∧
      t = { s with n := s.pins.cmdA, i := 0, d := t.d, done := false, ph := .check, tape := s.tape.tail }) ∧
    (s.acceptsEngine → t = { s with r := t.r, tape := s.tape.tail } ∨
      t = { s with err := true, ecode := .domain, tape := s.tape.tail }) ∧
    (s.ph = .idle → s.pins.rst = false → ¬ s.acceptsStart → t.ph = .idle ∧ t.rnd = s.rnd ∧ t.i = s.i) ∧
    (s.pins.rst = false → s.ph ≠ .idle →
      (s.ph = .check → s.i = s.n → t = { s with done := true, ph := .idle, tape := s.tape.tail }) ∧
      (s.ph = .check → s.i ≠ s.n → t = { s with ph := .unpack, tape := s.tape.tail }) ∧
      (s.ph = .unpack → t = { s with lanes := t.lanes, rnd := 0, ph := .keyadd, tape := s.tape.tail }) ∧
      (s.ph = .keyadd → t = { s with lanes := { s.lanes with l0 := t.lanes.l0 }, ph := .sboxl, tape := s.tape.tail }) ∧
      (s.ph = .sboxl → t = { s with lanes := { s.lanes with l0 := t.lanes.l0 }, ph := .mix, tape := s.tape.tail }) ∧
      (s.ph = .mix → s.rnd.val < 2 → t.rnd.val = s.rnd.val + 1 ∧
        t = { s with lanes := t.lanes, rnd := t.rnd, ph := .keyadd, tape := s.tape.tail }) ∧
      (s.ph = .mix → s.rnd.val = 2 → t = { s with lanes := t.lanes, ph := .pack, tape := s.tape.tail }) ∧
      (s.ph = .pack → (s.i.toNat + 1 < 2 ^ 64 → t.i.toNat = s.i.toNat + 1) ∧
        (∀ a, 24 ≤ a → t.d.read a = s.d.read a) ∧
        t = { s with d := t.d, i := t.i, ph := .check, tape := s.tape.tail }))

/-- 40_engine_ops.md R104. -/
def Obligations.EngineAndSequencerAreIsolated : Prop :=
  (∀ (s t : State) (a b : Word), ∀ i ∈ [Instr.add a b, .mul a b, .sbox a b], exec i s = .next t →
    t = { s with r := t.r, err := t.err, ecode := t.ecode }) ∧
  (∀ s t : State, s.ph ≠ .idle → s.pins.rst = false → step s = .next t → t.r = s.r) ∧
  (∀ s t : State, s.ph = .keyadd ∨ s.ph = .sboxl ∨ s.ph = .mix → s.pins.rst = false → step s = .next t →
    t = { s with lanes := t.lanes, rnd := t.rnd, ph := t.ph, tape := s.tape.tail })

/-- The column "Written by" of the table of 10_state.md R20: nothing else changes a piece of state. -/
def Obligations.EachRegisterHasOnlyItsWriters : Prop :=
  ∀ s t : State, s.pins.rst = false → step s = .next t →
    (t.lanes = s.lanes ∨ s.ph ∈ [Phase.unpack, .keyadd, .sboxl, .mix]) ∧
    (t.r = s.r ∨ s.acceptsEngine) ∧
    ((∀ a, t.d.read a = s.d.read a) ∨ s.ph = .pack ∨ s.acceptsStart) ∧
    (t.n = s.n ∨ s.acceptsStart) ∧
    (t.i = s.i ∨ s.ph = .pack ∨ s.acceptsStart) ∧
    (t.rnd = s.rnd ∨ s.ph = .unpack ∨ s.ph = .mix) ∧
    (t.ph = s.ph ∨ s.ph ≠ .idle ∨ s.acceptsStart) ∧
    (t.done = s.done ∨ s.ph = .check ∨ s.acceptsStart) ∧
    ((t.err = s.err ∧ t.ecode = s.ecode) ∨ s.acceptsFaulting t.ecode)

/-- 60_exceptions.md R154, R155: a step that changes the fault registers accepts a command that faults, for
the cause it records, and changes nothing else; a recorded fault stays as it is. -/
def Obligations.FaultsArePreciseAndStick : Prop :=
  ∀ s t : State, s.pins.rst = false → step s = .next t →
    (t.err ≠ s.err ∨ t.ecode ≠ s.ecode → s.ready = true ∧ s.acceptsFaulting t.ecode ∧
      t = { s with err := true, ecode := t.ecode, tape := s.tape.tail }) ∧
    (∀ c, s.acceptsFaulting c → t.err = true ∧ t.ecode = c) ∧
    (s.err = true → t.err = true ∧ t.ecode = s.ecode)

/-- No operation and no step of the block makes an access to a byte that does not exist (20_memory.md R55,
00_scope.md R13). -/
def Obligations.NoStepLeavesTheDigestRegister : Prop :=
  (∀ (s : State) (f : Fault), step s ≠ .fault f) ∧ (∀ (i : Instr) (s : State) (f : Fault), exec i s ≠ .fault f)

/-! ### Invariants -/

/-- 10_state.md R42, R22, R34, for every state that meets them, reached or not. -/
def Obligations.EveryStepKeepsInvariants : Prop := ∀ s t : State, Inv s → step s = .next t → Inv t

/-- 10_state.md R42 at reset. -/
def Obligations.ResetMeetsInvariants : Prop := Inv State.reset

/-- Under the invariants a step always answers a next state, which meets them: no fault, and no refusal but
for the MAE's own port driven where the spec defines nothing (log entries 3, 5 and 6). -/
def Obligations.InvariantsMakeEveryStepGoOn : Prop :=
  ∀ s : State, Inv s → s.maeInDomain → ∃ t, step s = .next t ∧ Inv t

/-! ### A round, a permutation, a run -/

/-- 41_sequencer_ops.md R125, the round. -/
def Obligations.ThreeMicroOperationsAreOneRound : Prop :=
  ∀ s : State, s.ph = .keyadd → s.lanes.reduced → s.noReset 3 → ∃ t v,
    runSteps 3 s = .next t ∧ roundFn s.lanes (roundKey s.rnd) = some v ∧
    t = (if s.rnd = 2 then { s with lanes := v, ph := .pack, tape := s.tape.drop 3 }
      else { s with lanes := v, rnd := s.rnd + 1, ph := .keyadd, tape := s.tape.drop 3 }) ∧ v.reduced

/-- 41_sequencer_ops.md R125, the permutation. -/
def Obligations.ElevenStepsAreOnePermutation : Prop :=
  ∀ s : State, s.ph = .unpack → (∀ a, 24 ≤ a → a < 32 → s.d.read a = 0) → s.i.toNat + 1 < 2 ^ 64 → s.noReset 11 →
    ∃ t, runSteps 11 s = .next t ∧ permuteFn s.d.digest = some t.d.digest ∧ t.i.toNat = s.i.toNat + 1 ∧
      t = { s with lanes := t.lanes, d := t.d, i := t.i, rnd := 2, ph := .check, tape := s.tape.drop 11 } ∧ t.lanes.reduced

/-- 41_sequencer_ops.md R125, the run: from any ready state, START `n` and `12*n + 1` further steps with no
reset. There, at the first such boundary and at no other, the run is over as 70_reset_and_hazards.md R186
defines it, its result is `D`, which `digest_out` shows, and the block is ready again. From a faulted state no
run is started, `DONE = 1` or not. -/
def Obligations.RunComputesIterate : Prop :=
  (∀ (s : State) (n b : Word), s.ready = true → s.noReset (12 * n.toNat + 2) →
    s.pins.cmdValid = true → s.pins.word = commandWord 0b100#3 n b →
    ∃ t, runSteps (12 * n.toNat + 2) s = .next t ∧ t.ph = .idle ∧ t.done = true ∧ t.i = n ∧ t.n = n ∧
      iterateFn n.toNat = some t.d.digest ∧ t.r = s.r ∧ t.err = s.err ∧ t.ecode = s.ecode ∧
      digestOutBytes t.digestOut = t.d.digest ∧ t.ready = true ∧
      runEndsAt s (12 * n.toNat + 2) t ∧ iterateFn n.toNat = some t.runResult ∧
      ∀ k u, runEndsAt s k u → k = 12 * n.toNat + 2 ∧ u = t) ∧
  (∀ (s : State) (k : Nat) (t : State), s.faulted → ¬ runEndsAt s k t)

/-- 41_sequencer_ops.md R128 (and the step count of R126): up to the last of the `12*n + 1` steps the block is
busy, and the host sees `STATUS = 0x02`, a zero digest and the same result register; one step later it is not
busy. Whatever else is on the wires, reset apart. -/
def Obligations.RunIsHiddenUntilItsLastStep : Prop :=
  ∀ (s : State) (n b : Word) (k : Nat), s.ready = true → s.ecode = .noFault → s.noReset (12 * n.toNat + 2) →
    s.pins.cmdValid = true → s.pins.word = commandWord 0b100#3 n b → 1 ≤ k → k ≤ 12 * n.toNat + 1 →
    (∃ t, runSteps k s = .next t ∧ t.busy = true ∧ t.observe = { status := 0x02, res := s.r, digestOut := 0 }) ∧
    ∃ t, runSteps (12 * n.toNat + 2) s = .next t ∧ t.busy = false ∧ t.observe.res = s.r

/-- 41_sequencer_ops.md R127. -/
def Obligations.RoundHasClosedForm : Prop :=
  ∀ (t : Lanes) (k : Word), t.reduced → ∃ v, roundFn t k = some v ∧
    v.l0.toNat = ((t.l0.toNat + k.toNat) ^ 5 % modulus + t.l1.toNat + t.l2.toNat) % modulus ∧
    v.l1.toNat = ((t.l0.toNat + k.toNat) ^ 5 % modulus + 2 * t.l1.toNat + t.l2.toNat) % modulus ∧
    v.l2.toNat = ((t.l0.toNat + k.toNat) ^ 5 % modulus + t.l1.toNat + 3 * t.l2.toNat) % modulus

/-- 41_sequencer_ops.md R120: three little-endian chunks, each reduced; the last 8 bytes do not matter. -/
def Obligations.UnpackReadsThreeChunks : Prop :=
  ∀ (c0 c1 c2 tail : List Byte), c0.length = 8 → c1.length = 8 → c2.length = 8 → tail.length = 8 →
    ∃ v, unpackFn (c0 ++ c1 ++ c2 ++ tail) = some v ∧ v.reduced ∧ v.l0.toNat = leNat c0 % modulus ∧
      v.l1.toNat = leNat c1 % modulus ∧ v.l2.toNat = leNat c2 % modulus

/-- 41_sequencer_ops.md R121. -/
def Obligations.PackAndUnpackAreInverse : Prop :=
  (∀ t : Lanes, packFn t = bytesLe64 t.l0 ++ bytesLe64 t.l1 ++ bytesLe64 t.l2 ++ zeroBytes 8) ∧
  (∀ t : Lanes, t.reduced → unpackFn (packFn t) = some t) ∧
  (∀ (c0 c1 c2 tail : List Byte), c0.length = 8 → c1.length = 8 → c2.length = 8 → tail.length = 8 →
    ((unpackFn (c0 ++ c1 ++ c2 ++ tail)).map packFn = some (c0 ++ c1 ++ c2 ++ tail) ↔
      tail = zeroBytes 8 ∧ leNat c0 < modulus ∧ leNat c1 < modulus ∧ leNat c2 < modulus))

/-- 41_sequencer_ops.md R123: a total function from 32 bytes to 32 bytes whose last 8 bytes are zero. -/
def Obligations.PermutationIsTotalWithZeroTail : Prop :=
  ∀ d : List Byte, d.length = 32 → ∃ e t0 t1 t2 t3,
    unpackFn d = some t0 ∧ roundFn t0 0x1234567890ABCDEF#64 = some t1 ∧ roundFn t1 0xFEDCBA0987654321#64 = some t2 ∧
    roundFn t2 0xDEADBEEFCAFEBABE#64 = some t3 ∧ permuteFn d = some e ∧ e = packFn t3 ∧ e.length = 32 ∧ e.drop 24 = zeroBytes 8

/-- 41_sequencer_ops.md R124: total, zero for `n = 0`, and one permutation more each time. -/
def Obligations.IterateIsTotalFold : Prop :=
  iterateFn 0 = some (zeroBytes 32) ∧
    ∀ n : Nat, ∃ d e, iterateFn n = some d ∧ iterateFn (n + 1) = some e ∧ permuteFn d = some e ∧ d.length = 32

/-- 10_state.md R39, R40, R44 in two executions: with the same control state and the same inputs, what the host
sees while `DONE = 0` does not depend on the lanes or the digest. -/
def Obligations.IntermediateDigestsStayHidden : Prop :=
  ∀ (s s' : State) (k : Nat) (t : State), Inv s → Inv s' → s.sameControl s' → runSteps k s = .next t →
    ∃ t', runSteps k s' = .next t' ∧ t.sameControl t' ∧ (t.done = false → t.observe = t'.observe)

/-! ### What the host sees -/

/-- 10_state.md R32: each field, and the values a state of an execution can show. -/
def Obligations.StatusFieldsAndValues : Prop :=
  ∀ s : State, s.status.getLsbD 0 = s.ready ∧ s.status.getLsbD 1 = s.busy ∧ s.status.getLsbD 2 = s.done ∧
    s.status.getLsbD 3 = s.err ∧ s.status.extractLsb' 4 2 = s.ecode.code ∧ s.status.extractLsb' 6 2 = 0 ∧
    (Inv s → s.status ∈ [0x01#8, 0x05#8, 0x02#8, 0x18#8, 0x1C#8, 0x28#8, 0x2C#8])

/-- 10_state.md R37. That a micro-operation which is not enabled answers the same state is the model's reading of
"executes only when `BUSY = 1`" (DEDUCED, log entry 4). -/
def Obligations.ReadyAndBusyExcludeEachOther : Prop :=
  ∀ s : State, (s.ready = true ↔ s.ph = .idle ∧ s.err = false) ∧ (s.busy = true ↔ s.ph ≠ .idle) ∧
    ¬ (s.ready = true ∧ s.busy = true) ∧ (s.ready = false ∧ s.busy = false ↔ s.ph = .idle ∧ s.err = true) ∧
    (s.ready = false → ∀ w i, decode (.cmd w) = .ok i → exec i s = .next s) ∧
    (s.busy = false → ∀ w i, decode (.phase w) = .ok i → exec i s = .next s)

/-- 10_state.md R39, 20_memory.md R53. -/
def Obligations.DigestOutIsGatedAndLittleEndian : Prop :=
  ∀ s : State,
    (s.done = true → (∀ k, k < 32 → s.digestOut.extractLsb' (8 * k) 8 = s.d.read k) ∧
      (∀ j : Fin 3, (s.digestOut.extractLsb' (64 * j) 64).toNat = s.d.chunkValue j) ∧
      ((∀ a, 24 ≤ a → a < 32 → s.d.read a = 0) → s.digestOut.extractLsb' 192 64 = 0)) ∧
    (s.done = false → s.digestOut = 0)

/-- 00_scope.md R11: the three functions, and that two are inverse. -/
def Obligations.ByteOrderFunctions : Prop :=
  (∀ b0 b1 b2 b3 b4 b5 b6 b7 : Byte, (le64 [b0, b1, b2, b3, b4, b5, b6, b7]).toNat =
    b0.toNat + b1.toNat * 2 ^ 8 + b2.toNat * 2 ^ 16 + b3.toNat * 2 ^ 24 + b4.toNat * 2 ^ 32 + b5.toNat * 2 ^ 40 +
      b6.toNat * 2 ^ 48 + b7.toNat * 2 ^ 56) ∧
  (∀ (v : Word) (k : Nat), k < 8 → (bytesLe64 v)[k]? = some (v.extractLsb' (8 * k) 8)) ∧
  (∀ b0 b1 b2 b3 : Byte, (be32 [b0, b1, b2, b3]).toNat =
    b0.toNat * 2 ^ 24 + b1.toNat * 2 ^ 16 + b2.toNat * 2 ^ 8 + b3.toNat) ∧
  (∀ v : Word, le64 (bytesLe64 v) = v) ∧ (∀ b : List Byte, b.length = 8 → bytesLe64 (le64 b) = b)

/-! ### The adapters, scripts and counts -/

/-- 42_boundary_adapters.md R141, R142. -/
def Obligations.InputAdapterDecodesEightBytes : Prop :=
  ∀ buf : List Byte,
    (buf.length = 8 → ∃ n, decodeN buf = .ok n ∧ n.toNat = leNat buf) ∧
    (buf.length ≠ 8 → decodeN buf = .error { received := buf.length } ∧
      ∀ fuel s, hashWordsOnBlock fuel buf s = .aborted { received := buf.length })

/-- 42_boundary_adapters.md R143. -/
def Obligations.OutputAdapterReadsBigEndianWords : Prop :=
  ∀ d : List Byte, d.length = 32 → ∃ ws, emitWords d = some ws ∧ ws.length = 8 ∧
    (∀ (k : Nat) (h : 4 * k + 3 < d.length), (ws[k]?).map BitVec.toNat =
      some (d[4 * k].toNat * 2 ^ 24 + d[4 * k + 1].toNat * 2 ^ 16 + d[4 * k + 2].toNat * 2 ^ 8 + d[4 * k + 3].toNat)) ∧
    (d.drop 24 = zeroBytes 8 → ws[6]? = some 0 ∧ ws[7]? = some 0)

/-- 42_boundary_adapters.md R145, 30_encoding.md R86, 70_reset_and_hazards.md R175: the pipeline on the block is
the pure function, started on a ready block, and on a block still busy with an earlier run of an execution, where
the host holds START until the block is ready. On a faulted block the host gets no words, an earlier digest or
not. That the host gives up after `fuel` steps, and the outcome `waiting`, are the model's (DESIGN CHOICE, log
entry 17). -/
def Obligations.PipelineOnBlockIsHashWords : Prop :=
  ∀ (fuel : Nat) (buf : List Byte) (s : State),
    (∀ n, decodeN buf = .ok n → 12 * n.toNat + 1 ≤ fuel →
      s.ready = true ∨ (Inv s ∧ s.err = false ∧ 12 * s.n.toNat + 1 ≤ fuel) →
      ∃ d ws, iterateFn (leNat buf) = some d ∧ hashWords buf = .ok (some ws) ∧ hashWordsOnBlock fuel buf s = .emitted ws ∧
        ws.length = 8 ∧ ∀ k, k < 8 → ws[k]? = some (be32 ((d.drop (4 * k)).take 4))) ∧
    (∀ e, decodeN buf = .error e → hashWords buf = .error e ∧ hashWordsOnBlock fuel buf s = .aborted e) ∧
    (buf.length = 8 → s.faulted → hashWordsOnBlock fuel buf s = .waiting)

/-- 30_encoding.md R85: `HASH n` on a ready block finishes at the end of the run (70_reset_and_hazards.md R186),
with the digest of `n`. The bounded wait and the outcome `finished` are the model's (DESIGN CHOICE, log
entry 15). -/
def Obligations.HashPseudoInstructionEndsWithDigest : Prop :=
  ∀ (h : HostRun) (n : Word) (fuel : Nat), h.block.ready = true → 12 * n.toNat + 1 ≤ fuel →
    ∃ h', HostRun.script fuel (Line.hash (.num n)) h = .finished h' ∧
      runEndsAt (h.block.presentStart n) (12 * n.toNat + 2) h'.block ∧ h'.block.showsRunEnd ∧
      iterateFn n.toNat = some h'.block.d.digest ∧ h'.saved = h.saved

/-- 70_reset_and_hazards.md R184: what a run uses, and that it takes at least one cycle a step. -/
def Obligations.RunUsesEngineInProportion : Prop :=
  ∀ s : State, s.ph = .check → s.i = 0 → s.noReset (12 * s.n.toNat + 1) →
    runUse (12 * s.n.toNat + 1) s =
      { adds := 21 * s.n.toNat, muls := 15 * s.n.toNat, reductions := 3 * s.n.toNat } ∧
    12 * s.n.toNat + 1 ≤ runCycles (12 * s.n.toNat + 1) s

/-! ### Encoding -/

/-- Every operation, with every operand, is decoded from its word: no bit of an encoding is dropped. -/
def Obligations.DecodeRecoversEveryEncoding : Prop := ∀ i : Instr, decode (encode i) = .ok i

/-- A word that decodes is the encoding of what it decodes to: each word has one meaning. -/
def Obligations.DecodedWordIsTheEncoding : Prop := ∀ (w : Wire) (i : Instr), decode w = .ok i → encode i = w

/-- 30_encoding.md R79, R80, R82: exactly two selectors are undefined, and no command is. -/
def Obligations.OnlyTwoSelectorsAreUndefined : Prop :=
  ∀ (w : Wire) (e : DecodeError), decode w = .error e ↔
    (e = .reservedMaeOp ∧ ∃ a b, w = .mae (maeWord 0b11#2 a b)) ∨ (e = .unreachedPhase ∧ w = .phase 0b111#3)

/-- Words written out from 30_encoding.md R71 to R77 and the programs of 95_test_vectors.md. -/
def Obligations.WrittenOutWordsDecode : Prop :=
  decode (.cmd 0x11234567890ABCDEF1234567890ABCDEF#131) = .ok (.mul 0x1234567890ABCDEF#64 0x1234567890ABCDEF#64) ∧
    decode (.cmd 0x400000000000000010000000000000000#131) = .ok (.start 1#64 0#64) ∧
    decode (.cmd 0x7AAAAAAAAAAAAAAAA5555555555555555#131) = .ok (.reserved111 0xAAAAAAAAAAAAAAAA#64 0x5555555555555555#64) ∧
    decode (.mae 0x200000000000000050000000000000007#130) = .ok (.maeSbox 5#64 7#64) ∧
    decode (.phase 0b101#3) = .ok .mix
end

