-- ==== Sys2Proof/Laws/Arith.lean ====
section
/-! SUPPORT. The MAE's functions on numbers: one lemma for what each computes, on all of its domain. -/

namespace Sys2Proof.Machine

theorem modulus_eq : modulus = 9223372036854775807 := rfl

theorem isElem_iff (a : Word) : isElem a = true ↔ a.toNat < modulus := by simp [isElem]

theorem toNat_ofNat_mod (x : Nat) : (BitVec.ofNat 64 (x % modulus)).toNat = x % modulus := by
  have : x % modulus < modulus := Nat.mod_lt _ (by decide)
  rw [BitVec.toNat_ofNat, Nat.mod_eq_of_lt (this.trans (by decide))]

@[simp] theorem reduce_toNat (v : Word) : (reduce v).toNat = v.toNat % modulus := toNat_ofNat_mod _

@[simp] theorem mulP_toNat (a b : Word) : (mulP a b).toNat = a.toNat * b.toNat % modulus := toNat_ofNat_mod _

theorem mulP_lt (a b : Word) : (mulP a b).toNat < modulus := by
  rw [mulP_toNat]
  exact Nat.mod_lt _ (by decide)

theorem sboxP_lt (x : Word) : (sboxP x).toNat < modulus := mulP_lt _ _

/-- The three multiplications are the fifth power. -/
theorem sboxP_toNat (x : Word) : (sboxP x).toNat = x.toNat ^ 5 % modulus := by
  simp only [sboxP, mulP_toNat]
  conv_rhs => rw [show x.toNat ^ 5 = x.toNat * x.toNat * (x.toNat * x.toNat) * x.toNat by ring]
  simp [Nat.mul_mod]

/-- `add_p` has a result exactly on its domain, and that result is its algorithm's. -/
theorem addP_spec (a b : Word) (h : a.toNat < modulus) : ∃ v, addP a b = some v ∧
    v.toNat = (if modulus ≤ a.toNat + b.toNat then a.toNat + b.toNat - modulus else a.toNat + b.toNat) := by
  refine ⟨BitVec.ofNat 64 (if modulus ≤ a.toNat + b.toNat then a.toNat + b.toNat - modulus else a.toNat + b.toNat),
    by simp only [addP, if_pos h], ?_⟩
  have hb := b.isLt
  rw [BitVec.toNat_ofNat, Nat.mod_eq_of_lt]
  rw [modulus_eq] at *
  split <;> omega

theorem addP_none (a b : Word) (h : modulus ≤ a.toNat) : addP a b = none := by
  simp [addP, Nat.not_lt.mpr h]

/-- On field elements `add_p` is addition modulo `P`. -/
theorem addP_elems (a b : Word) (ha : a.toNat < modulus) (hb : b.toNat < modulus) :
    ∃ v, addP a b = some v ∧ v.toNat = (a.toNat + b.toNat) % modulus := by
  obtain ⟨v, e, hv⟩ := addP_spec a b ha
  refine ⟨v, e, ?_⟩
  rw [hv]
  split
  · rw [Nat.mod_eq_sub_mod (by assumption), Nat.mod_eq_of_lt (by omega)]
  · rw [Nat.mod_eq_of_lt (by omega)]

/-- Whatever the second operand, the result is congruent to the sum. -/
theorem addP_congr (a b : Word) (v : Word) (h : addP a b = some v) : v.toNat % modulus = (a.toNat + b.toNat) % modulus := by
  by_cases ha : a.toNat < modulus
  · obtain ⟨w, e, hw⟩ := addP_spec a b ha
    obtain rfl : w = v := by rw [e] at h; exact Option.some.inj h
    rw [hw]
    split
    · rw [← Nat.mod_eq_sub_mod (by assumption)]
    · rfl
  · rw [addP_none a b (by omega)] at h
    exact absurd h (by simp)

/-- A row of MIX on field elements. -/
theorem mixRow_spec (x y z : Word) (hx : x.toNat < modulus) (hy : y.toNat < modulus) (hz : z.toNat < modulus) :
    ∃ v, mixRow x y z = some v ∧ v.toNat = (x.toNat + y.toNat + z.toNat) % modulus := by
  obtain ⟨u, e, hu⟩ := addP_elems x y hx hy
  obtain ⟨v, e', hv⟩ := addP_elems u z (by rw [hu]; exact Nat.mod_lt _ (by decide)) hz
  exact ⟨v, by simp [mixRow, mae, e, e'], by rw [hv, hu, Nat.mod_add_mod]⟩

/-- MIX on field elements is the matrix `M`, and every new lane is a field element. -/
theorem mixLanes_spec (t : Lanes) (h0 : t.l0.toNat < modulus) (h1 : t.l1.toNat < modulus) (h2 : t.l2.toNat < modulus) :
    ∃ u, mixLanes t = some u ∧ u.l0.toNat = (t.l0.toNat + t.l1.toNat + t.l2.toNat) % modulus ∧
      u.l1.toNat = (t.l0.toNat + 2 * t.l1.toNat + t.l2.toNat) % modulus ∧
      u.l2.toNat = (t.l0.toNat + t.l1.toNat + 3 * t.l2.toNat) % modulus := by
  obtain ⟨x0, e0, hx0⟩ := mixRow_spec t.l0 t.l1 t.l2 h0 h1 h2
  obtain ⟨x1, e1, hx1⟩ := mixRow_spec t.l0 (mulP mixScalar1 t.l1) t.l2 h0 (mulP_lt _ _) h2
  obtain ⟨x2, e2, hx2⟩ := mixRow_spec t.l0 t.l1 (mulP mixScalar2 t.l2) h0 h1 (mulP_lt _ _)
  refine ⟨⟨x0, x1, x2⟩, by simp [mixLanes, mae, e0, e1, e2], hx0, ?_, ?_⟩
  · rw [hx1, mulP_toNat, show mixScalar1.toNat = 2 from rfl, modulus_eq]
    omega
  · rw [hx2, mulP_toNat, show mixScalar2.toNat = 3 from rfl, modulus_eq]
    omega

end Sys2Proof.Machine
end

