-- ==== Sys2Proof/Laws/Bytes.lean ====
section
/-! SUPPORT. Byte order: the value of a byte sequence, and that `LE64` and `BYTES_LE64` are inverse. -/

namespace Sys2Proof.Machine

theorem leNat_lt (bs : List Byte) : leNat bs < 256 ^ bs.length := by
  induction bs with
  | nil => simp [leNat]
  | cons b bs ih =>
    have hb := b.isLt
    simp only [leNat, List.length_cons, pow_succ]
    omega

theorem leNat_append (xs ys : List Byte) : leNat (xs ++ ys) = leNat xs + 256 ^ xs.length * leNat ys := by
  induction xs with
  | nil => simp [leNat]
  | cons b bs ih => simp only [List.cons_append, leNat, ih, List.length_cons, pow_succ]; ring

theorem leNat_zeroBytes (k : Nat) : leNat (zeroBytes k) = 0 := by
  induction k with
  | zero => rfl
  | succ k ih => simpa [zeroBytes, List.replicate_succ, leNat] using ih

/-- A byte sequence is determined by its value and its length. -/
theorem leNat_injective {xs ys : List Byte} (hl : xs.length = ys.length) (h : leNat xs = leNat ys) : xs = ys := by
  induction xs generalizing ys with
  | nil => cases ys with
    | nil => rfl
    | cons => simp at hl
  | cons x xs ih => cases ys with
    | nil => simp at hl
    | cons y ys =>
      have hx := x.isLt
      have hy := y.isLt
      simp only [leNat] at h
      simp only [List.length_cons, Nat.add_right_cancel_iff] at hl
      have hxy : x = y := BitVec.eq_of_toNat_eq (by omega)
      rw [hxy, ih hl (by omega)]

@[simp] theorem bytesLe64_length (v : Word) : (bytesLe64 v).length = 8 := by simp [bytesLe64]

@[simp] theorem zeroBytes_length (k : Nat) : (zeroBytes k).length = k := by simp [zeroBytes]

/-- The bytes of a value have that value. -/
@[simp] theorem leNat_bytesLe64 (v : Word) : leNat (bytesLe64 v) = v.toNat := by
  have := v.isLt
  simp [bytesLe64, List.range, List.range.loop, leNat, BitVec.extractLsb'_toNat, Nat.shiftRight_eq_div_pow]
  omega

/-- `LE64` of 8 bytes loses nothing. -/
theorem le64_toNat {bs : List Byte} (h : bs.length = 8) : (le64 bs).toNat = leNat bs := by
  have := leNat_lt bs
  rw [h] at this
  simp only [le64, BitVec.toNat_ofNat]
  exact Nat.mod_eq_of_lt (by norm_num at this ⊢; exact this)

@[simp] theorem le64_bytesLe64 (v : Word) : le64 (bytesLe64 v) = v := by
  apply BitVec.eq_of_toNat_eq
  rw [le64_toNat (bytesLe64_length v), leNat_bytesLe64]

theorem bytesLe64_le64 {bs : List Byte} (h : bs.length = 8) : bytesLe64 (le64 bs) = bs :=
  leNat_injective (by simp [h]) (by rw [leNat_bytesLe64, le64_toNat h])

end Sys2Proof.Machine
end

