-- ==== Sys2Proof/Laws/Decode.lean ====
section
/-! SUPPORT. The fields of the words of formats H and E, and the codes of the phases. -/

namespace Sys2Proof

/-- The fields of a word laid out as `(op, a, b)`. -/
theorem fields_op {k : Nat} (op : BitVec k) (a b : Word) : (op ++ a ++ b).extractLsb' 128 k = op := by
  ext i hi
  simp [BitVec.getElem_extractLsb', BitVec.getLsbD_append, show ¬ (128 + i < 64) by omega, show ¬ (128 + i - 64 < 64) by omega,
    show 128 + i - 64 - 64 = i by omega, BitVec.getLsbD_eq_getElem hi]

theorem fields_a {k : Nat} (op : BitVec k) (a b : Word) : (op ++ a ++ b).extractLsb' 64 64 = a := by
  ext i hi
  simp [BitVec.getElem_extractLsb', BitVec.getLsbD_append, show ¬ (64 + i < 64) by omega, hi]

theorem fields_b {k : Nat} (op : BitVec k) (a b : Word) : (op ++ a ++ b).extractLsb' 0 64 = b := by
  ext i hi
  simp [BitVec.getElem_extractLsb', BitVec.getLsbD_append, hi]

/-- A word so laid out is its fields. -/
theorem of_fields {k : Nat} (w : BitVec (k + 64 + 64)) :
    (w.extractLsb' 128 k ++ w.extractLsb' 64 64 ++ w.extractLsb' 0 64 : BitVec (k + 64 + 64)) = w := by
  ext i hi
  by_cases h1 : i < 64
  · simp [BitVec.getElem_append, h1, BitVec.getLsbD_eq_getElem hi]
  · by_cases h2 : i - 64 < 64
    · simp [BitVec.getElem_append, h1, h2, show 64 + (i - 64) = i by omega, BitVec.getLsbD_eq_getElem hi]
    · simp [BitVec.getElem_append, h1, h2, show 128 + (i - 64 - 64) = i by omega, BitVec.getLsbD_eq_getElem hi]

@[simp] theorem commandWord_op (op : BitVec 3) (a b : Word) : (commandWord op a b).extractLsb' 128 3 = op := fields_op op a b
@[simp] theorem commandWord_a (op : BitVec 3) (a b : Word) : (commandWord op a b).extractLsb' 64 64 = a := fields_a op a b
@[simp] theorem commandWord_b (op : BitVec 3) (a b : Word) : (commandWord op a b).extractLsb' 0 64 = b := fields_b op a b
@[simp] theorem maeWord_op (op : BitVec 2) (a b : Word) : (maeWord op a b).extractLsb' 128 2 = op := fields_op op a b
@[simp] theorem maeWord_a (op : BitVec 2) (a b : Word) : (maeWord op a b).extractLsb' 64 64 = a := fields_a op a b
@[simp] theorem maeWord_b (op : BitVec 2) (a b : Word) : (maeWord op a b).extractLsb' 0 64 = b := fields_b op a b

theorem commandWord_fields (w : BitVec 131) : commandWord (w.extractLsb' 128 3) (w.extractLsb' 64 64) (w.extractLsb' 0 64) = w :=
  of_fields (k := 3) w

theorem maeWord_fields (w : BitVec 130) : maeWord (w.extractLsb' 128 2) (w.extractLsb' 64 64) (w.extractLsb' 0 64) = w :=
  of_fields (k := 2) w

namespace Machine

/-- A phase is found again from its code, and a code from its phase. -/
theorem ofCode_code (p : Phase) : Phase.ofCode p.code = some p := by cases p <;> rfl

theorem code_ofCode {c : BitVec 3} {p : Phase} (h : Phase.ofCode c = some p) : p.code = c := by
  revert c p; decide

end Machine

end Sys2Proof
end

