-- ==== Sys2Proof/Laws/Memory.lean ====
section
/-! SUPPORT. The digest register: read after write, and that every operation keeps the canonical form. -/

namespace Sys2Proof.Machine

theorem Memory.unlist_cons_same (c : Host.Cell) (m : Memory) {a : Nat} (h : c.1 = a) :
    Memory.unlist (c :: m) a = Memory.unlist m a := by simp [Memory.unlist, h]

theorem Memory.unlist_cons_other (c : Host.Cell) (m : Memory) {a : Nat} (h : c.1 ≠ a) :
    Memory.unlist (c :: m) a = c :: Memory.unlist m a := by simp [Memory.unlist, h]

theorem Memory.read_unlist_same (m : Memory) (a : Nat) : (m.unlist a).read a = 0 := by
  induction m with
  | nil => rfl
  | cons c m ih =>
    by_cases h : c.1 = a
    · rw [Memory.unlist_cons_same c m h, ih]
    · rw [Memory.unlist_cons_other c m h, Memory.read, if_neg h, ih]

theorem Memory.read_unlist_other (m : Memory) {a x : Nat} (h : x ≠ a) : (m.unlist a).read x = m.read x := by
  induction m with
  | nil => rfl
  | cons c m ih =>
    by_cases hc : c.1 = a
    · rw [Memory.unlist_cons_same c m hc, ih, Memory.read, if_neg (by omega)]
    · rw [Memory.unlist_cons_other c m hc, Memory.read, Memory.read, ih]

theorem Memory.read_list_same (m : Memory) (a : Nat) (b : Byte) (h : ∀ c ∈ m, c.1 ≠ a) : (m.list a b).read a = b := by
  induction m with
  | nil => simp [Memory.list, Memory.read]
  | cons c m ih =>
    have hc := h c (by simp)
    have := ih fun c hc => h c (by simp [hc])
    simp only [Memory.list]
    split <;> simp [Memory.read, hc, this]

theorem Memory.read_list_other (m : Memory) {a x : Nat} (b : Byte) (h : x ≠ a) : (m.list a b).read x = m.read x := by
  have h' : ¬ a = x := fun e => h e.symm
  induction m with
  | nil => simp [Memory.list, Memory.read, h']
  | cons c m ih =>
    simp only [Memory.list]
    split <;> simp [Memory.read, h', ih]

theorem Memory.unlist_ne (m : Memory) (a : Nat) : ∀ c ∈ m.unlist a, c.1 ≠ a := by
  intro c hc
  simpa [Memory.unlist] using (List.mem_filter.mp hc).2

/-- A byte written is the byte read. -/
@[simp] theorem Memory.read_write_same (m : Memory) (a : Nat) (b : Byte) : (m.write a b).read a = b := by
  unfold Memory.write
  split
  · rename_i h; rw [h]; exact Memory.read_unlist_same m a
  · exact Memory.read_list_same _ a b (Memory.unlist_ne m a)

/-- A write leaves every other byte alone. -/
theorem Memory.read_write_other (m : Memory) {a x : Nat} (b : Byte) (h : x ≠ a) : (m.write a b).read x = m.read x := by
  unfold Memory.write
  split
  · exact Memory.read_unlist_other m h
  · rw [Memory.read_list_other _ b h, Memory.read_unlist_other m h]

/-- Outside the bytes written every byte reads as before. -/
theorem Memory.read_writeBytes_other (bs : List Byte) : ∀ (m : Memory) (a x : Nat), x < a ∨ a + bs.length ≤ x →
    (m.writeBytes a bs).read x = m.read x := by
  induction bs with
  | nil => intros; rfl
  | cons b bs ih =>
    intro m a x h
    simp only [List.length_cons] at h
    rw [Memory.writeBytes, ih _ _ _ (by omega), Memory.read_write_other _ _ (by omega)]

/-- Byte `k` of what was written is read at its index. -/
theorem Memory.read_writeBytes_at (bs : List Byte) : ∀ (m : Memory) (a k : Nat) (h : k < bs.length),
    (m.writeBytes a bs).read (a + k) = bs[k] := by
  induction bs with
  | nil => intro _ _ _ h; simp at h
  | cons b bs ih =>
    intro m a k h
    cases k with
    | zero => rw [Memory.writeBytes, Memory.read_writeBytes_other _ _ _ _ (by omega)]; simp
    | succ k =>
      have := ih (m.write a b) (a + 1) k (by simpa using h)
      rw [Memory.writeBytes, show a + (k + 1) = a + 1 + k by omega, this]
      simp

theorem Memory.wfFrom_mono {lo lo' : Nat} (h : lo' ≤ lo) : ∀ {m : Memory}, Memory.wfFrom lo m = true → Memory.wfFrom lo' m = true
  | [], _ => rfl
  | (k, v) :: m, hm => by
    simp only [Memory.wfFrom, Bool.and_eq_true, decide_eq_true_eq] at hm ⊢
    exact ⟨⟨⟨by omega, hm.1.1.2⟩, hm.1.2⟩, hm.2⟩

theorem Memory.unlist_wfFrom (a : Nat) : ∀ (m : Memory) (lo : Nat), Memory.wfFrom lo m = true →
    Memory.wfFrom lo (m.unlist a) = true
  | [], _, _ => rfl
  | (k, v) :: m, lo, h => by
    simp only [Memory.wfFrom, Bool.and_eq_true, decide_eq_true_eq] at h
    have ih := Memory.unlist_wfFrom a m (k + 1) h.2
    by_cases hk : k = a
    · rw [Memory.unlist_cons_same (k, v) m hk]
      exact Memory.wfFrom_mono (by omega) ih
    · rw [Memory.unlist_cons_other (k, v) m hk]
      simp only [Memory.wfFrom, Bool.and_eq_true, decide_eq_true_eq]
      exact ⟨h.1, ih⟩

theorem Memory.list_wfFrom {a : Nat} {b : Byte} (ha : a < digestBytes) (hb : b ≠ 0) : ∀ (m : Memory) (lo : Nat), lo ≤ a →
    (∀ c ∈ m, c.1 ≠ a) → Memory.wfFrom lo m = true → Memory.wfFrom lo (m.list a b) = true
  | [], lo, hlo, _, _ => by
    simpa [Memory.list, Memory.wfFrom, hlo, ha] using hb
  | (k, v) :: m, lo, hlo, hne, h => by
    simp only [Memory.wfFrom, Bool.and_eq_true, decide_eq_true_eq] at h
    have hk : k ≠ a := hne (k, v) (by simp)
    simp only [Memory.list]
    split
    · simp only [Memory.wfFrom, Bool.and_eq_true, decide_eq_true_eq]
      exact ⟨⟨⟨hlo, ha⟩, hb⟩, ⟨⟨⟨by omega, h.1.1.2⟩, h.1.2⟩, h.2⟩⟩
    · simp only [Memory.wfFrom, Bool.and_eq_true, decide_eq_true_eq]
      exact ⟨h.1, Memory.list_wfFrom ha hb m (k + 1) (by omega) (fun c hc => hne c (by simp [hc])) h.2⟩

/-- A write to a byte that exists keeps the canonical form. -/
theorem Memory.write_wf {m : Memory} {a : Nat} (b : Byte) (ha : a < digestBytes) (h : m.wf = true) : (m.write a b).wf = true := by
  unfold Memory.write Memory.wf
  have hu := Memory.unlist_wfFrom a m 0 h
  split
  · exact hu
  · exact Memory.list_wfFrom ha (by assumption) _ 0 (by omega) (Memory.unlist_ne m a) hu

theorem Memory.writeBytes_wf (bs : List Byte) : ∀ (m : Memory) (a : Nat), a + bs.length ≤ digestBytes → m.wf = true →
    (m.writeBytes a bs).wf = true := by
  induction bs with
  | nil => intro m a _ h; exact h
  | cons b bs ih =>
    intro m a hl h
    simp only [List.length_cons] at hl
    exact ih _ _ (by omega) (Memory.write_wf b (by omega) h)

@[simp] theorem Memory.digest_length (m : Memory) : m.digest.length = digestBytes := by simp [Memory.digest]

theorem Memory.digest_getElem (m : Memory) (k : Nat) (h : k < m.digest.length) : m.digest[k] = m.read k := by
  simp [Memory.digest]

/-- `MemWrite` inside `D` succeeds, writes those bytes, leaves the others, and keeps the canonical form. -/
theorem memWrite_spec (m : Memory) (a : Nat) (v : List Byte) (h : a + v.length ≤ digestBytes) :
    ∃ m', memWrite m a v = some m' ∧ (∀ k (hk : k < v.length), m'.read (a + k) = v[k]) ∧
      (∀ x, x < a ∨ a + v.length ≤ x → m'.read x = m.read x) ∧ (m.wf = true → m'.wf = true) :=
  ⟨m.writeBytes a v, by simp [memWrite, h], fun k hk => Memory.read_writeBytes_at v m a k hk,
    fun x hx => Memory.read_writeBytes_other v m a x hx, fun hm => Memory.writeBytes_wf v m a h hm⟩

/-- `MemRead` inside `D` answers the bytes there. -/
theorem memRead_inside (m : Memory) (a n : Nat) (h : a + n ≤ digestBytes) :
    memRead m a n = some ((m.digest.drop a).take n) := by
  simp only [memRead, h, if_true, Option.some.injEq]
  apply List.ext_getElem
  · simp; omega
  · intro k h1 h2
    simp [Memory.digest]

/-- The lane UNPACK reads from chunk `j`. -/
theorem chunkLane_eq (m : Memory) (j : Nat) (h : j < 3) : chunkLane m j = some (reduce (le64 (digestChunk m.digest j))) := by
  rw [chunkLane, memRead_inside _ _ _ (by simp only [laneBytes, digestBytes]; omega)]
  rfl

/-- PACK's writes always succeed; each lane's bytes land in its chunk, the other bytes read as before, and
the canonical form stays. -/
theorem packLanes_spec (m : Memory) (t : Lanes) : ∃ m', packLanes m t = some m' ∧
    (∀ k (hk : k < 8), m'.read k = (bytesLe64 t.l0)[k]'(by simpa using hk)) ∧
    (∀ k (hk : k < 8), m'.read (8 + k) = (bytesLe64 t.l1)[k]'(by simpa using hk)) ∧
    (∀ k (hk : k < 8), m'.read (16 + k) = (bytesLe64 t.l2)[k]'(by simpa using hk)) ∧
    (∀ x, 24 ≤ x → m'.read x = m.read x) ∧ (m.wf = true → m'.wf = true) := by
  obtain ⟨m0, e0, at0, out0, wf0⟩ := memWrite_spec m 0 (bytesLe64 t.l0) (by simp [digestBytes])
  obtain ⟨m1, e1, at1, out1, wf1⟩ := memWrite_spec m0 8 (bytesLe64 t.l1) (by simp [digestBytes])
  obtain ⟨m2, e2, at2, out2, wf2⟩ := memWrite_spec m1 16 (bytesLe64 t.l2) (by simp [digestBytes])
  simp only [bytesLe64_length] at out0 out1 out2 at0 at1 at2
  refine ⟨m2, ?_, ?_, ?_, fun k hk => at2 k hk, ?_, fun h => wf2 (wf1 (wf0 h))⟩
  · simp [packLanes, laneBytes, e0, e1, e2]
  · intro k hk
    rw [out2 k (by omega), out1 k (by omega)]
    simpa using at0 k hk
  · intro k hk
    rw [out2 (8 + k) (by omega)]
    exact at1 k hk
  · intro x hx
    rw [out2 x (by omega), out1 x (by omega), out0 x (by omega)]

/-- START's write always succeeds and zeroes every byte. -/
theorem startWrite_spec (m : Memory) : ∃ m', memWrite m 0 (zeroBytes digestBytes) = some m' ∧
    (∀ x, x < digestBytes → m'.read x = 0) ∧ (∀ x, digestBytes ≤ x → m'.read x = m.read x) ∧ (m.wf = true → m'.wf = true) := by
  obtain ⟨m', e, at', out, wf⟩ := memWrite_spec m 0 (zeroBytes digestBytes) (by simp)
  refine ⟨m', e, ?_, ?_, wf⟩
  · intro x hx
    have := at' x (by simpa using hx)
    simpa [zeroBytes] using this
  · intro x hx
    exact out x (by simp; omega)

end Sys2Proof.Machine
end

