-- ==== Sys2Proof/Laws/State.lean ====
section
/-! SUPPORT. One lemma per field per named update of the state, true by `rfl`. -/

namespace Sys2Proof.Machine

variable (c : ECode) (s : State) (n : Word)

@[simp] theorem raiseFault_lanes : (raiseFault c s).lanes = s.lanes := rfl
@[simp] theorem raiseFault_r : (raiseFault c s).r = s.r := rfl
@[simp] theorem raiseFault_d : (raiseFault c s).d = s.d := rfl
@[simp] theorem raiseFault_n : (raiseFault c s).n = s.n := rfl
@[simp] theorem raiseFault_i : (raiseFault c s).i = s.i := rfl
@[simp] theorem raiseFault_rnd : (raiseFault c s).rnd = s.rnd := rfl
@[simp] theorem raiseFault_ph : (raiseFault c s).ph = s.ph := rfl
@[simp] theorem raiseFault_done : (raiseFault c s).done = s.done := rfl
@[simp] theorem raiseFault_err : (raiseFault c s).err = true := rfl
@[simp] theorem raiseFault_ecode : (raiseFault c s).ecode = c := rfl
@[simp] theorem raiseFault_maeR : (raiseFault c s).maeR = s.maeR := rfl
@[simp] theorem raiseFault_tape : (raiseFault c s).tape = s.tape := rfl

@[simp] theorem takeReset_lanes : (takeReset s).lanes = { l0 := 0, l1 := 0, l2 := 0 } := rfl
@[simp] theorem takeReset_r : (takeReset s).r = 0 := rfl
@[simp] theorem takeReset_d : (takeReset s).d = [] := rfl
@[simp] theorem takeReset_n : (takeReset s).n = 0 := rfl
@[simp] theorem takeReset_i : (takeReset s).i = 0 := rfl
@[simp] theorem takeReset_rnd : (takeReset s).rnd = 0 := rfl
@[simp] theorem takeReset_ph : (takeReset s).ph = .idle := rfl
@[simp] theorem takeReset_done : (takeReset s).done = false := rfl
@[simp] theorem takeReset_err : (takeReset s).err = false := rfl
@[simp] theorem takeReset_ecode : (takeReset s).ecode = .noFault := rfl
@[simp] theorem takeReset_maeR : (takeReset s).maeR = 0 := rfl
@[simp] theorem takeReset_tape : (takeReset s).tape = s.tape.tail := rfl

@[simp] theorem advance_lanes : s.advance.lanes = s.lanes := rfl
@[simp] theorem advance_r : s.advance.r = s.r := rfl
@[simp] theorem advance_d : s.advance.d = s.d := rfl
@[simp] theorem advance_n : s.advance.n = s.n := rfl
@[simp] theorem advance_i : s.advance.i = s.i := rfl
@[simp] theorem advance_rnd : s.advance.rnd = s.rnd := rfl
@[simp] theorem advance_ph : s.advance.ph = s.ph := rfl
@[simp] theorem advance_done : s.advance.done = s.done := rfl
@[simp] theorem advance_err : s.advance.err = s.err := rfl
@[simp] theorem advance_ecode : s.advance.ecode = s.ecode := rfl
@[simp] theorem advance_maeR : s.advance.maeR = s.maeR := rfl
@[simp] theorem advance_tape : s.advance.tape = s.tape.tail := rfl
@[simp] theorem advance_ready : s.advance.ready = s.ready := rfl
@[simp] theorem advance_busy : s.advance.busy = s.busy := rfl

@[simp] theorem presentStart_lanes : (s.presentStart n).lanes = s.lanes := rfl
@[simp] theorem presentStart_r : (s.presentStart n).r = s.r := rfl
@[simp] theorem presentStart_d : (s.presentStart n).d = s.d := rfl
@[simp] theorem presentStart_n : (s.presentStart n).n = s.n := rfl
@[simp] theorem presentStart_i : (s.presentStart n).i = s.i := rfl
@[simp] theorem presentStart_rnd : (s.presentStart n).rnd = s.rnd := rfl
@[simp] theorem presentStart_ph : (s.presentStart n).ph = s.ph := rfl
@[simp] theorem presentStart_done : (s.presentStart n).done = s.done := rfl
@[simp] theorem presentStart_err : (s.presentStart n).err = s.err := rfl
@[simp] theorem presentStart_ecode : (s.presentStart n).ecode = s.ecode := rfl
@[simp] theorem presentStart_maeR : (s.presentStart n).maeR = s.maeR := rfl
@[simp] theorem presentStart_tape : (s.presentStart n).tape = [Pins.ofCommand 0b100#3 n 0] := rfl

/-- READY and BUSY by the phase. -/
theorem busy_iff : s.busy = true ↔ s.ph ≠ .idle := by simp [State.busy]
theorem ready_iff : s.ready = true ↔ s.ph = .idle ∧ s.err = false := by simp [State.ready]

/-- What MIX leaves of the state beside the lanes: the position alone moves. -/
theorem afterMix_lanes : (afterMix s).lanes = s.lanes := by unfold afterMix; split <;> rfl
theorem afterMix_last (h : s.rnd = lastRound) : afterMix s = { s with ph := .pack } := by simp [afterMix, h]
theorem afterMix_next (h : s.rnd ≠ lastRound) : afterMix s = { s with rnd := s.rnd + 1, ph := .keyadd } := by
  simp [afterMix, h]

end Sys2Proof.Machine
end

