-- ==== Sys2Proof/Laws/Ops.lean ====
section
/-! SUPPORT. Everything the shared operations and a step can do, said once. -/

namespace Sys2Proof.Machine

variable {s t : State}

/-- Acceptance: the effect when ready, nothing otherwise. -/
theorem accept_ready (h : s.ready = true) (e : Result) : accept s e = e := by simp [accept, h]
theorem accept_notReady (h : s.ready = false) (e : Result) : accept s e = .next s := by simp [accept, h]

/-- A micro-operation: the effect in its phase, nothing otherwise. -/
theorem whenPhase_in {p : Phase} (h : s.ph = p) (e : Result) : whenPhase p s e = e := by simp [whenPhase, h]
theorem whenPhase_out {p : Phase} (h : s.ph ≠ p) (e : Result) : whenPhase p s e = .next s := by simp [whenPhase, h]

@[simp] theorem orAddRefused_some {α : Type} (v : α) (k : α → State) : orAddRefused (some v) k = .next (k v) := rfl
@[simp] theorem orAddRefused_none {α : Type} (k : α → State) : orAddRefused none k = .refused .addOutsideDomain := rfl
@[simp] theorem orDigestFault_some (m : Memory) (k : Memory → State) : orDigestFault (some m) k = .next (k m) := rfl
@[simp] theorem orDigestFault_none (k : Memory → State) : orDigestFault none k = .fault .digestAddress := rfl

/-- An engine command that answers a next state was turned away, or set `R` to the MAE's result, or took
`E_DOMAIN`. -/
theorem engineCommand_cases {d : Bool} {v : Option Word} (h : engineCommand d v s = .next t) :
    (s.ready = false ∧ t = s) ∨ (s.ready = true ∧ d = true ∧ ∃ x, v = some x ∧ t = { s with r := x }) ∨
      (s.ready = true ∧ d = false ∧ t = raiseFault .domain s) := by
  unfold engineCommand at h
  cases hr : s.ready with
  | false => rw [accept_notReady hr] at h; cases h; exact .inl ⟨rfl, rfl⟩
  | true =>
    rw [accept_ready hr] at h
    cases d with
    | false => cases h; exact .inr (.inr ⟨rfl, rfl, rfl⟩)
    | true =>
      cases v with
      | none => exact nomatch h
      | some x => cases h; exact .inr (.inl ⟨rfl, rfl, x, rfl, rfl⟩)

/-- A driven MAE port that answers a next state set `mae_r` alone. -/
theorem driveMae_cases {op : MaeOp} {a b : Word} (h : driveMae op a b s = .next t) :
    ∃ x, mae op a b = some x ∧ t = { s with maeR := x } := by
  unfold driveMae at h
  cases e : mae op a b with
  | none => rw [e] at h; exact nomatch h
  | some x => rw [e] at h; cases h; exact ⟨x, rfl, rfl⟩

/-- A step is a reset, or the effect of the operation the state selects, or the refusal of a word that is
none. -/
theorem step_cases : (s.pins.rst = true ∧ step s = .next (takeReset s)) ∨
    (s.pins.rst = false ∧ ∃ i, decode s.fetch = .ok i ∧ step s = exec i s.advance) ∨
    (s.pins.rst = false ∧ ∃ e, decode s.fetch = .error e ∧ step s = .refused (.undefinedEncoding e)) := by
  unfold step
  cases s.pins.rst with
  | true => exact .inl ⟨rfl, rfl⟩
  | false =>
    cases decode s.fetch with
    | ok i => exact .inr (.inl ⟨rfl, i, rfl, rfl⟩)
    | error e => exact .inr (.inr ⟨rfl, e, rfl, rfl⟩)

/-- What the coming step fetches, by what is enabled. -/
theorem fetch_busy (h : s.ph ≠ .idle) : s.fetch = .phase s.ph.code := by simp [State.fetch, State.busy, h]

theorem fetch_command (h : s.ready = true) (hv : s.pins.cmdValid = true) : s.fetch = .cmd s.pins.word := by
  have := (ready_iff s).mp h
  simp [State.fetch, State.busy, h, hv, this.1]

theorem fetch_mae {m : MaeDrive} (h : s.ph = .idle) (hv : s.ready = false ∨ s.pins.cmdValid = false)
    (hm : s.pins.mae = some m) : s.fetch = .mae m.word := by
  rcases hv with hv | hv <;> simp [State.fetch, State.busy, h, hv, hm]

theorem fetch_hold (h : s.ph = .idle) (hv : s.ready = false ∨ s.pins.cmdValid = false) (hm : s.pins.mae = none) :
    s.fetch = .phase Phase.idle.code := by
  rcases hv with hv | hv <;> simp [State.fetch, State.busy, h, hv, hm]

/-- One step of a run. -/
theorem runSteps_next (k : Nat) {s s' : State} (h : step s = .next s') : runSteps (k + 1) s = runSteps k s' := by
  rw [runSteps, h]

/-- A run stops where a step stops. -/
theorem runSteps_fault (k : Nat) {s : State} {f : Fault} (h : step s = .fault f) : runSteps (k + 1) s = .fault f := by
  rw [runSteps, h]
theorem runSteps_refused (k : Nat) {s : State} {r : Refusal} (h : step s = .refused r) : runSteps (k + 1) s = .refused r := by
  rw [runSteps, h]

/-- A run that goes on goes on at its first step. -/
theorem runSteps_succ {k : Nat} {s t : State} (h : runSteps (k + 1) s = .next t) : ∃ s', step s = .next s' ∧ runSteps k s' = .next t := by
  rw [runSteps] at h
  cases e : step s with
  | next s' => rw [e] at h; exact ⟨s', rfl, h⟩
  | fault f => rw [e] at h; exact nomatch h
  | refused r => rw [e] at h; exact nomatch h

/-- Steps after steps. -/
theorem runSteps_add (j k : Nat) {s t : State} (h : runSteps j s = .next t) : runSteps (j + k) s = runSteps k t := by
  induction j generalizing s with
  | zero => cases h; rw [Nat.zero_add]
  | succ j ih =>
    obtain ⟨s', e, h'⟩ := runSteps_succ h
    rw [show j + 1 + k = (j + k) + 1 by omega, runSteps_next _ e, ih h']

/-- The host's run function and the model's agree. -/
theorem run_eq_runSteps (k : Nat) (s : Sys2Proof.core.State) : Host.Core.run Sys2Proof.core k s = runSteps k s := by
  induction k generalizing s with
  | zero => rfl
  | succ k ih =>
    rw [Host.Core.run]
    cases e : step s with
    | next s' => rw [show Sys2Proof.core.step s = .next s' from e, runSteps_next k e]; exact ih s'
    | fault f => rw [show Sys2Proof.core.step s = .fault f from e]; exact (runSteps_fault k e).symm
    | refused r => rw [show Sys2Proof.core.step s = .refused r from e]; exact (runSteps_refused k e).symm

end Sys2Proof.Machine
end

