-- ==== Sys2Proof/Laws/Step.lean ====
section
/-! SUPPORT. What a step can do, said once: `StepCase` and `step_inversion`. A proof about every step takes a
step apart by this and unfolds no meaning. -/

namespace Sys2Proof.Machine

/-- What a step from `s` that answers `t` has done, with everything it needed. -/
inductive StepCase (s t : State) : Prop
  | reset (rst : s.pins.rst = true) (eq : t = takeReset s)
  | start (rst : s.pins.rst = false) (ph : s.ph = .idle) (acc : s.acceptsStart) (m : Memory)
      (zero : ∀ x, x < digestBytes → m.read x = 0) (rest : ∀ x, digestBytes ≤ x → m.read x = s.d.read x)
      (wf : s.d.wf = true → m.wf = true)
      (eq : t = { s.advance with n := s.pins.cmdA, i := 0, d := m, done := false, ph := .check })
  | engine (rst : s.pins.rst = false) (ph : s.ph = .idle) (acc : s.acceptsEngine) (dom : ¬ s.acceptsFaulting .domain)
      (v : Word) (lt : v.toNat < modulus) (eq : t = { s.advance with r := v })
  | faulting (rst : s.pins.rst = false) (ph : s.ph = .idle) (c : ECode) (acc : s.acceptsFaulting c) (eq : t = raiseFault c s.advance)
  | hold (rst : s.pins.rst = false) (ph : s.ph = .idle) (none : s.ready = false ∨ s.pins.cmdValid = false) (eq : t = s.advance)
  | mae (rst : s.pins.rst = false) (ph : s.ph = .idle) (none : s.ready = false ∨ s.pins.cmdValid = false) (v : Word)
      (eq : t = { s.advance with maeR := v })
  | checkEnd (rst : s.pins.rst = false) (ph : s.ph = .check) (ended : s.i = s.n)
      (eq : t = { s.advance with done := true, ph := .idle })
  | checkMore (rst : s.pins.rst = false) (ph : s.ph = .check) (more : s.i ≠ s.n) (eq : t = { s.advance with ph := .unpack })
  | unpack (rst : s.pins.rst = false) (ph : s.ph = .unpack) (v : Lanes) (val : unpackFn s.d.digest = some v)
      (eq : t = { s.advance with lanes := v, rnd := 0, ph := .keyadd })
  | keyadd (rst : s.pins.rst = false) (ph : s.ph = .keyadd) (v : Word) (val : addP s.lanes.l0 (roundKey s.rnd) = some v)
      (eq : t = { s.advance with lanes := { s.lanes with l0 := v }, ph := .sboxl })
  | sboxl (rst : s.pins.rst = false) (ph : s.ph = .sboxl)
      (eq : t = { s.advance with lanes := { s.lanes with l0 := sboxP s.lanes.l0 }, ph := .mix })
  | mixLast (rst : s.pins.rst = false) (ph : s.ph = .mix) (last : s.rnd = lastRound) (v : Lanes) (val : mixLanes s.lanes = some v)
      (eq : t = { s.advance with lanes := v, ph := .pack })
  | mixNext (rst : s.pins.rst = false) (ph : s.ph = .mix) (next : s.rnd ≠ lastRound) (v : Lanes) (val : mixLanes s.lanes = some v)
      (eq : t = { s.advance with lanes := v, rnd := s.rnd + 1, ph := .keyadd })
  | pack (rst : s.pins.rst = false) (ph : s.ph = .pack) (m : Memory) (val : packLanes s.d s.lanes = some m)
      (eq : t = { s.advance with d := m, i := incrementI s.i, ph := .check })

variable {s t : State}

/-- A step that is no reset runs the operation fetched. -/
theorem step_runs {i : Instr} (hr : s.pins.rst = false) (h : decode s.fetch = .ok i) : step s = exec i s.advance := by
  simp only [step, hr, h, Bool.false_eq_true, if_false]

/-- A step with `PH = p` other than IDLE runs the operation of `p`. -/
theorem step_busy {i : Instr} (hr : s.pins.rst = false) (hp : s.ph ≠ .idle) (h : decode (.phase s.ph.code) = .ok i) :
    step s = exec i s.advance := step_runs hr (by rw [fetch_busy hp]; exact h)

theorem step_reset (hr : s.pins.rst = true) : step s = .next (takeReset s) := by simp only [step, hr, if_true]

theorem step_command (hr : s.pins.rst = false) (h : s.ready = true) (hv : s.pins.cmdValid = true) :
    step s = exec (decodeCmd s.pins.word) s.advance := step_runs hr (by rw [fetch_command h hv]; rfl)

theorem step_hold (hr : s.pins.rst = false) (h : s.ph = .idle) (hv : s.ready = false ∨ s.pins.cmdValid = false)
    (hm : s.pins.mae = none) : step s = .next s.advance := by
  rw [step_runs (i := .idle) hr (by rw [fetch_hold h hv hm]; rfl)]; rfl

/-- Each micro-operation as a step, in its phase. -/
theorem step_check (hr : s.pins.rst = false) (h : s.ph = .check) :
    step s = .next (if s.i = s.n then { s.advance with done := true, ph := .idle } else { s.advance with ph := .unpack }) := by
  rw [step_busy (i := .check) hr (by simp [h]) (by rw [h]; rfl)]
  exact whenPhase_in (s := s.advance) h _

theorem step_unpack (hr : s.pins.rst = false) (h : s.ph = .unpack) : ∃ v, unpackFn s.d.digest = some v ∧
    step s = .next { s.advance with lanes := v, rnd := 0, ph := .keyadd } := by
  rw [step_busy (i := .unpack) hr (by simp [h]) (by rw [h]; rfl)]
  refine ⟨⟨reduce (le64 (digestChunk s.d.digest 0)), reduce (le64 (digestChunk s.d.digest 1)), reduce (le64 (digestChunk s.d.digest 2))⟩,
    by simp [unpackFn], ?_⟩
  simp only [exec, execUnpack, whenPhase_in (s := s.advance) h, advance_d, chunkLane_eq s.d _ (show 0 < 3 by omega),
    chunkLane_eq s.d _ (show 1 < 3 by omega), chunkLane_eq s.d _ (show 2 < 3 by omega)]

theorem step_keyadd (hr : s.pins.rst = false) (h : s.ph = .keyadd) : step s = orAddRefused (addP s.lanes.l0 (roundKey s.rnd))
    fun v => { s.advance with lanes := { s.lanes with l0 := v }, ph := .sboxl } := by
  rw [step_busy (i := .keyadd) hr (by simp [h]) (by rw [h]; rfl)]
  exact whenPhase_in (s := s.advance) h _

theorem step_sboxl (hr : s.pins.rst = false) (h : s.ph = .sboxl) :
    step s = .next { s.advance with lanes := { s.lanes with l0 := sboxP s.lanes.l0 }, ph := .mix } := by
  rw [step_busy (i := .sboxl) hr (by simp [h]) (by rw [h]; rfl)]
  exact whenPhase_in (s := s.advance) h _

theorem step_mix (hr : s.pins.rst = false) (h : s.ph = .mix) :
    step s = orAddRefused (mixLanes s.lanes) fun v => afterMix { s.advance with lanes := v } := by
  rw [step_busy (i := .mix) hr (by simp [h]) (by rw [h]; rfl)]
  exact whenPhase_in (s := s.advance) h _

theorem step_pack (hr : s.pins.rst = false) (h : s.ph = .pack) : ∃ m, packLanes s.d s.lanes = some m ∧
    step s = .next { s.advance with d := m, i := incrementI s.i, ph := .check } := by
  obtain ⟨m, e, _⟩ := packLanes_spec s.d s.lanes
  refine ⟨m, e, ?_⟩
  rw [step_busy (i := .pack) hr (by simp [h]) (by rw [h]; rfl)]
  simp only [exec, execPack, whenPhase_in (s := s.advance) h, advance_lanes, advance_d, advance_i, e, orDigestFault_some]

/-- The MAE port driven alone sets `mae_r`, or stops. -/
theorem step_mae {m : MaeDrive} (hr : s.pins.rst = false) (h : s.ph = .idle) (hv : s.ready = false ∨ s.pins.cmdValid = false)
    (hm : s.pins.mae = some m) (ht : step s = .next t) : ∃ v, t = { s.advance with maeR := v } := by
  have hf := fetch_mae h hv hm
  rcases step_cases (s := s) with ⟨h1, _⟩ | ⟨_, i, hd, e⟩ | ⟨_, x, _, e⟩
  · simp [hr] at h1
  · rw [e] at ht
    rw [hf] at hd
    simp only [decode, decodeMae] at hd
    repeat' split at hd
    all_goals cases hd
    · obtain ⟨v, _, e⟩ := driveMae_cases (op := .add) ht; exact ⟨v, e⟩
    · obtain ⟨v, _, e⟩ := driveMae_cases (op := .mul) ht; exact ⟨v, e⟩
    · obtain ⟨v, _, e⟩ := driveMae_cases (op := .sbox) (b := m.word.extractLsb' 0 64) ht; exact ⟨v, e⟩
  · rw [e] at ht; exact nomatch ht

/-- An engine command of operation `op` that is accepted. -/
theorem engine_case {d : Bool} {v : Option Word} (hr : s.pins.rst = false) (hrd : s.ready = true) (hv : s.pins.cmdValid = true)
    (hop : s.pins.cmdOp.toNat ≤ 2) (hlt : d = true → ∀ x, v = some x → x.toNat < modulus)
    (hd : d = false ↔ (modulus ≤ s.pins.cmdA.toNat ∨ (s.pins.cmdOp ≠ 0b010#3 ∧ modulus ≤ s.pins.cmdB.toNat)))
    (h : engineCommand d v s.advance = .next t) : StepCase s t := by
  have hp := ((ready_iff s).mp hrd).1
  have acc : s.acceptsEngine := ⟨hr, hrd, hv, hop⟩
  rcases engineCommand_cases h with ⟨h1, _⟩ | ⟨_, hdt, x, hx, e⟩ | ⟨_, hdf, e⟩
  · rw [advance_ready, hrd] at h1; exact nomatch h1
  · refine .engine hr hp acc (fun hf => ?_) x (hlt hdt x hx) e
    rw [hd.mpr hf.2] at hdt; exact nomatch hdt
  · exact .faulting hr hp .domain ⟨acc, hd.mp hdf⟩ e

theorem illegal_case (hr : s.pins.rst = false) (hrd : s.ready = true) (hv : s.pins.cmdValid = true)
    (hop : s.pins.cmdOp ∈ [0b011#3, 0b101#3, 0b110#3, 0b111#3]) (h : illegalCommand s.advance = .next t) : StepCase s t := by
  rw [illegalCommand, accept_ready (s := s.advance) hrd] at h
  cases h
  exact .faulting hr ((ready_iff s).mp hrd).1 .illCmd ⟨hr, hrd, hv, hop⟩ rfl

theorem isElem_false (a : Word) : isElem a = false ↔ modulus ≤ a.toNat := by simp [isElem]

theorem isElem_and_false (a b : Word) : (isElem a && isElem b) = false ↔ modulus ≤ a.toNat ∨ modulus ≤ b.toNat := by
  rw [Bool.and_eq_false_iff, isElem_false, isElem_false]

/-- An accepted command. -/
theorem command_case (hr : s.pins.rst = false) (hrd : s.ready = true) (hv : s.pins.cmdValid = true) (h : step s = .next t) :
    StepCase s t := by
  have hp := ((ready_iff s).mp hrd).1
  rw [step_command hr hrd hv] at h
  have f1 : s.pins.word.extractLsb' 128 3 = s.pins.cmdOp := commandWord_op _ _ _
  have f2 : s.pins.word.extractLsb' 64 64 = s.pins.cmdA := commandWord_a _ _ _
  have f3 : s.pins.word.extractLsb' 0 64 = s.pins.cmdB := commandWord_b _ _ _
  simp only [decodeCmd, f1, f2, f3] at h
  have hall : ∀ x : BitVec 3, x ≠ 0b000#3 → x ≠ 0b001#3 → x ≠ 0b010#3 → x ≠ 0b011#3 → x ≠ 0b100#3 → x ≠ 0b101#3 →
      x ≠ 0b110#3 → x = 0b111#3 := by intro x; intros; bv_omega
  split at h
  · rename_i e
    refine engine_case hr hrd hv (by rw [e]; decide) (fun hd x hx => ?_) ?_ h
    · simp only [Bool.and_eq_true, isElem_iff] at hd
      obtain ⟨v, ev, hval⟩ := addP_elems _ _ hd.1 hd.2
      obtain rfl : v = x := by rw [mae, ev] at hx; exact Option.some.inj hx
      rw [hval]; exact Nat.mod_lt _ (by decide)
    · rw [isElem_and_false, e]; simp
  split at h
  · rename_i e
    refine engine_case hr hrd hv (by rw [e]; decide) (fun _ x hx => ?_) ?_ h
    · cases hx; exact mulP_lt _ _
    · rw [isElem_and_false, e]; simp
  split at h
  · rename_i e
    refine engine_case hr hrd hv (by rw [e]; decide) (fun _ x hx => ?_) ?_ h
    · cases hx; exact sboxP_lt _
    · simp [isElem_false, e]
  split at h
  · rename_i e; exact illegal_case hr hrd hv (by rw [e]; decide) h
  split at h
  · rename_i e
    obtain ⟨m, em, hz, ho, hw⟩ := startWrite_spec s.d
    simp only [exec, execStart, accept_ready (s := s.advance) hrd, advance_d, em, orDigestFault_some] at h
    cases h
    exact .start hr hp ⟨hr, hrd, hv, e⟩ m hz ho hw rfl
  split at h
  · rename_i e; exact illegal_case hr hrd hv (by rw [e]; decide) h
  split at h
  · rename_i e; exact illegal_case hr hrd hv (by rw [e]; decide) h
  · exact illegal_case hr hrd hv (by rw [hall s.pins.cmdOp ‹_› ‹_› ‹_› ‹_› ‹_› ‹_› ‹_›]; decide) h

/-- EVERYTHING A STEP CAN DO. -/
theorem step_inversion (h : step s = .next t) : StepCase s t := by
  cases hr : s.pins.rst with
  | true => rw [step_reset hr] at h; cases h; exact .reset hr rfl
  | false =>
    cases hp : s.ph with
    | idle =>
      by_cases hc : s.ready = true ∧ s.pins.cmdValid = true
      · exact command_case hr hc.1 hc.2 h
      · have hn : s.ready = false ∨ s.pins.cmdValid = false := by
          cases h1 : s.ready <;> cases h2 : s.pins.cmdValid <;> simp_all
        cases hm : s.pins.mae with
        | none => rw [step_hold hr hp hn hm] at h; cases h; exact .hold hr hp hn rfl
        | some m =>
          obtain ⟨v, e⟩ := step_mae hr hp hn hm h
          exact .mae hr hp hn v e
    | check =>
      rw [step_check hr hp] at h
      split at h <;> cases h
      · exact .checkEnd hr hp (by assumption) rfl
      · exact .checkMore hr hp (by assumption) rfl
    | unpack => obtain ⟨v, hv, e⟩ := step_unpack hr hp; rw [e] at h; cases h; exact .unpack hr hp v hv rfl
    | keyadd =>
      rw [step_keyadd hr hp] at h
      cases hv : addP s.lanes.l0 (roundKey s.rnd) with
      | none => rw [hv] at h; exact nomatch h
      | some v => rw [hv] at h; cases h; exact .keyadd hr hp v hv rfl
    | sboxl => rw [step_sboxl hr hp] at h; cases h; exact .sboxl hr hp rfl
    | mix =>
      rw [step_mix hr hp] at h
      cases hv : mixLanes s.lanes with
      | none => rw [hv] at h; exact nomatch h
      | some v =>
        rw [hv, orAddRefused_some] at h
        by_cases hl : s.rnd = lastRound
        · rw [afterMix_last (s := { s.advance with lanes := v }) hl] at h; cases h; exact .mixLast hr hp hl v hv rfl
        · rw [afterMix_next (s := { s.advance with lanes := v }) hl] at h; cases h; exact .mixNext hr hp hl v hv rfl
    | pack => obtain ⟨m, hm, e⟩ := step_pack hr hp; rw [e] at h; cases h; exact .pack hr hp m hm rfl

end Sys2Proof.Machine
end

