-- ==== Sys2Proof/Laws/Run.lean ====
section
/-! SUPPORT. What claims about whole runs are made of: runs without reset, the bytes `digest_out` shows, what
PACK leaves as a digest, and a measure that every step of a run lowers by one. -/

namespace Sys2Proof.Machine

variable {s t : State}

/-- No reset in `k + 1` steps: none now, and none in `k` steps from the next state. -/
theorem noReset_now {k : Nat} (h : s.noReset (k + 1)) : s.pins.rst = false := by
  unfold State.pins
  cases e : s.tape with
  | nil => rfl
  | cons p r => exact h p (by simp [e])

theorem noReset_drop {j k : Nat} (h : s.noReset (j + k)) (e : t.tape = s.tape.drop j) : t.noReset k := by
  intro p hp
  rw [e] at hp
  apply h p
  rw [List.take_add]
  exact List.mem_append_right _ hp

theorem noReset_next {k : Nat} (h : s.noReset (k + 1)) (e : t.tape = s.tape.tail) : t.noReset k :=
  noReset_drop (j := 1) (by rwa [Nat.add_comm]) (by rw [e, List.drop_one])

theorem noReset_fewer {j k : Nat} (h : s.noReset k) (hj : j ≤ k) : s.noReset j :=
  fun p hp => h p (List.take_subset_take_left _ hj hp)

/-- A run of `j + k` steps is one of `j` and then one of `k`. -/
theorem runSteps_split (j k : Nat) (h : runSteps (j + k) s = .next t) : ∃ u, runSteps j s = .next u ∧ runSteps k u = .next t := by
  induction j generalizing s with
  | zero => exact ⟨s, rfl, by rwa [Nat.zero_add] at h⟩
  | succ j ih =>
    rw [show j + 1 + k = (j + k) + 1 by omega] at h
    obtain ⟨s', e, h'⟩ := runSteps_succ h
    obtain ⟨u, hu, hk⟩ := ih h'
    exact ⟨u, by rw [runSteps_next _ e]; exact hu, hk⟩

theorem reduced_iff (v : Lanes) : v.reduced ↔ v.l0.toNat < modulus ∧ v.l1.toNat < modulus ∧ v.l2.toNat < modulus := by
  constructor
  · intro h; exact ⟨h 0, h 1, h 2⟩
  · rintro ⟨a, b, c⟩ j
    fin_cases j
    · exact a
    · exact b
    · exact c

/-- `I + 1`, where it fits. -/
theorem incrementI_toNat {i : Word} (h : i.toNat + 1 < 2 ^ 64) : (incrementI i).toNat = i.toNat + 1 := by
  simp only [incrementI, if_pos h, BitVec.toNat_add]
  rw [Nat.mod_eq_of_lt (by simpa using h)]; rfl

/-- The two readings of a chunk agree. -/
theorem leNat_digestChunk (m : Memory) (j : Fin 3) : leNat (digestChunk m.digest j) = m.chunkValue j := by
  fin_cases j <;> simp [digestChunk, Memory.digest, digestBytes, laneBytes, List.range, List.range.loop, leNat, Memory.chunkValue] <;> omega

/-- Byte `k` of a number. -/
theorem leNat_byte (bs : List Byte) : ∀ (k : Nat) (h : k < bs.length), leNat bs / 256 ^ k % 256 = (bs[k]).toNat := by
  induction bs with
  | nil => intro k h; simp at h
  | cons b bs ih =>
    intro k h
    have hb := b.isLt
    cases k with
    | zero => simp [leNat]; omega
    | succ k =>
      have := ih k (by simpa using h)
      rw [pow_succ', ← Nat.div_div_eq_div_mul, show leNat (b :: bs) / 256 = leNat bs by simp only [leNat]; omega, this]
      rfl

/-- With `DONE = 1`, the bytes of `digest_out`. -/
theorem digestOut_byte (hd : s.done = true) (k : Nat) (h : k < 32) : s.digestOut.extractLsb' (8 * k) 8 = s.d.read k := by
  apply BitVec.eq_of_toNat_eq
  have hl := leNat_lt s.d.digest
  rw [Memory.digest_length] at hl
  rw [State.digestOut, hd, if_pos rfl, BitVec.extractLsb'_toNat, BitVec.toNat_ofNat, Nat.mod_eq_of_lt (hl.trans_le (by decide)),
    Nat.shiftRight_eq_div_pow, pow_mul]
  have := leNat_byte s.d.digest k (by simpa [digestBytes] using h)
  rw [Memory.digest_getElem] at this
  exact this

theorem digestOutBytes_digest (hd : s.done = true) : digestOutBytes s.digestOut = s.d.digest := by
  apply List.map_congr_left
  intro k hk
  exact digestOut_byte hd k (List.mem_range.mp hk)

/-- PACK over a zero tail leaves `pack` of the lanes. -/
theorem digest_packLanes {m m' : Memory} {v : Lanes} (h : packLanes m v = some m') (hz : ∀ a, 24 ≤ a → a < 32 → m.read a = 0) :
    m'.digest = packFn v := by
  obtain ⟨m'', e, h0, h1, h2, ho, _⟩ := packLanes_spec m v
  rw [h] at e
  cases e
  apply List.ext_getElem
  · simp [packFn, digestBytes, laneBytes]
  · intro k hk hk'
    rw [Memory.digest_getElem]
    simp only [Memory.digest_length, digestBytes] at hk
    simp only [packFn]
    by_cases a : k < 8
    · rw [h0 k a, List.getElem_append_left (by simp; omega), List.getElem_append_left (by simp; omega),
        List.getElem_append_left (by simp; omega)]
    · by_cases b : k < 16
      · have := h1 (k - 8) (by omega)
        rw [show 8 + (k - 8) = k by omega] at this
        rw [this, List.getElem_append_left (by simp; omega), List.getElem_append_left (by simp; omega),
          List.getElem_append_right (by simp; omega)]
        simp
      · by_cases c : k < 24
        · have := h2 (k - 16) (by omega)
          rw [show 16 + (k - 16) = k by omega] at this
          rw [this, List.getElem_append_left (by simp; omega), List.getElem_append_right (by simp; omega)]
          simp
        · rw [ho k (by omega), hz k (by omega) (by omega), List.getElem_append_right (by simp; omega)]
          simp [zeroBytes]

/-- The steps a run still takes, by its position. -/
def stepsLeft (s : State) : Nat :=
  let m := s.n.toNat - s.i.toNat
  match s.ph with
  | .idle => 0
  | .check => 12 * m + 1
  | .unpack => 12 * m
  | .keyadd => 12 * m - 1 - 3 * s.rnd.val
  | .sboxl => 12 * m - 2 - 3 * s.rnd.val
  | .mix => 12 * m - 3 - 3 * s.rnd.val
  | .pack => 12 * m - 10

/-- The count of a run is right: `I` at most `N`, and less past CHECK. -/
def countOk (s : State) : Prop := s.i.toNat ≤ s.n.toNat ∧ (s.ph ≠ .idle → s.ph ≠ .check → s.i.toNat < s.n.toNat)

/-- A step of a run takes one entry of the tape, leaves one step less, and keeps `DONE` until the last. -/
theorem run_step (hp : s.ph ≠ .idle) (hr : s.pins.rst = false) (hc : countOk s) (h : step s = .next t) :
    stepsLeft t = stepsLeft s - 1 ∧ countOk t ∧ (t.ph = .idle ↔ stepsLeft t = 0) ∧ t.tape = s.tape.tail ∧
      t.n = s.n ∧ t.r = s.r ∧ t.err = s.err ∧ t.ecode = s.ecode ∧ (t.ph ≠ .idle → t.done = s.done) := by
  have hv := s.rnd.isLt
  cases step_inversion h with
  | reset rst => rw [hr] at rst; exact nomatch rst
  | start _ ph => exact absurd ph hp
  | engine _ ph => exact absurd ph hp
  | faulting _ ph => exact absurd ph hp
  | hold _ ph => exact absurd ph hp
  | mae _ ph => exact absurd ph hp
  | checkEnd _ ph ended e => subst e; simp [stepsLeft, ph, ended, countOk]
  | checkMore _ ph more e =>
    subst e
    have h1 : s.i.toNat ≠ s.n.toNat := fun h => more (BitVec.eq_of_toNat_eq h)
    have := hc.1
    simp [stepsLeft, ph, countOk]; omega
  | unpack _ ph _ _ e => subst e; have := hc.2 (by simp [ph]) (by simp [ph]); simp [stepsLeft, ph, countOk]; omega
  | keyadd _ ph _ _ e => subst e; have := hc.2 (by simp [ph]) (by simp [ph]); simp [stepsLeft, ph, countOk]; omega
  | sboxl _ ph e => subst e; have := hc.2 (by simp [ph]) (by simp [ph]); simp [stepsLeft, ph, countOk]; omega
  | mixLast _ ph last _ _ e =>
    subst e
    have := hc.2 (by simp [ph]) (by simp [ph])
    have h2 : s.rnd.val = 2 := by rw [last]; rfl
    simp [stepsLeft, ph, countOk, h2]; omega
  | mixNext _ ph next _ _ e =>
    subst e
    have := hc.2 (by simp [ph]) (by simp [ph])
    have h2 : s.rnd.val ≠ 2 := fun h => next (Fin.ext h)
    have h3 : (s.rnd + 1).val = s.rnd.val + 1 := by omega
    simp [stepsLeft, ph, countOk, h3]; omega
  | pack _ ph _ _ e =>
    subst e
    have := hc.2 (by simp [ph]) (by simp [ph])
    have hi := incrementI_toNat (i := s.i) (by have := s.n.isLt; omega)
    simp [stepsLeft, ph, countOk, hi]; omega

end Sys2Proof.Machine
end

