-- ==== Sys2Proof/Laws/Host.lean ====
section
/-! SUPPORT. What the end of a run and a host that waits can be, said once. -/

namespace Sys2Proof.Machine

variable {s t u : State} {p q : Pins} {seen : State → Bool} {fuel k l : Nat}

theorem step_tape (h : step s = .next t) : t.tape = s.tape.tail := by
  cases step_inversion h <;> (rename_i eq; subst eq; rfl)

/-- The steps of a block that nothing drives leave it undriven. -/
theorem runSteps_tape (h : runSteps k s = .next t) (e : s.tape = []) : t.tape = [] := by
  induction k generalizing s with
  | zero => cases h; exact e
  | succ k ih => obtain ⟨s', hs, h'⟩ := runSteps_succ h; exact ih h' (by rw [step_tape hs, e]; rfl)

/-- A run is over at one boundary. -/
theorem runEndsAt_unique (h : runEndsAt s k t) (h' : runEndsAt s l u) : k = l ∧ t = u := by
  obtain ⟨-, -, pos, run, shows, first⟩ := h
  obtain ⟨-, -, pos', run', shows', first'⟩ := h'
  rcases lt_trichotomy k l with lt | rfl | lt
  · exact absurd shows (first' k t pos lt run)
  · rw [run] at run'; cases run'; exact ⟨rfl, rfl⟩
  · exact absurd shows' (first l u pos' lt run')

theorem holdUntil_here (h : seen s = true) : holdUntil p seen fuel s = .reached s := by
  cases fuel <;> simp only [holdUntil, h, if_true]

theorem holdUntil_over (h : seen s = false) : holdUntil p seen 0 s = .waiting s := by
  simp only [holdUntil, h, Bool.false_eq_true, if_false]

theorem holdUntil_next (h : seen s = false) (e : step { s with tape := [p] } = .next t) :
    holdUntil p seen (fuel + 1) s = holdUntil p seen fuel t := by
  simp only [holdUntil, h, Bool.false_eq_true, if_false, e]

/-- A wait that reaches a state sees there what it waits for, and every step on the way kept what such steps
keep. -/
theorem holdUntil_reached {P : State → Prop} (keep : ∀ u v, P u → seen u = false → step { u with tape := [p] } = .next v → P v)
    (hs : P s) (h : holdUntil p seen fuel s = .reached t) : seen t = true ∧ P t := by
  induction fuel generalizing s with
  | zero =>
    simp only [holdUntil] at h
    split at h
    · cases h; exact ⟨by assumption, hs⟩
    · exact nomatch h
  | succ fuel ih =>
    simp only [holdUntil] at h
    split at h
    · cases h; exact ⟨by assumption, hs⟩
    · rename_i unseen
      split at h
      · exact ih (keep _ _ hs (by simpa using unseen) (by assumption)) h
      · exact nomatch h
      · exact nomatch h

/-- A wait for what never comes, in states the steps keep, is not over after any number of steps. -/
theorem holdUntil_never {P : State → Prop} (never : ∀ u, P u → seen u = false)
    (go : ∀ u, P u → ∃ v, step { u with tape := [p] } = .next v ∧ P v) (fuel : Nat) (hs : P s) :
    ∃ t, holdUntil p seen fuel s = .waiting t ∧ P t := by
  induction fuel generalizing s with
  | zero => exact ⟨s, holdUntil_over (never s hs), hs⟩
  | succ fuel ih =>
    obtain ⟨v, e, hv⟩ := go s hs
    rw [holdUntil_next (never s hs) e]
    exact ih hv

/-- Wires that make no difference to a step while the host waits make none to the wait. -/
theorem holdUntil_congr (same : ∀ u, seen u = false → step { u with tape := [p] } = step { u with tape := [q] }) :
    holdUntil p seen fuel s = holdUntil q seen fuel s := by
  induction fuel generalizing s with
  | zero => rfl
  | succ fuel ih =>
    simp only [holdUntil]
    split
    · rfl
    · rename_i unseen
      simp only [same s (by simpa using unseen)]
      split
      · exact ih
      · rfl
      · rfl

/-- Waiting with nothing driven is running: it reaches the first state that is seen. -/
theorem holdUntil_quiet (le : k ≤ fuel) (e : s.tape = []) (h : runSteps k s = .next t) (last : seen t = true)
    (before : ∀ j u, j < k → runSteps j s = .next u → seen u = false) : holdUntil Pins.quiet seen fuel s = .reached t := by
  induction k generalizing s fuel with
  | zero => cases h; exact holdUntil_here last
  | succ k ih =>
    obtain ⟨s', hs, h'⟩ := runSteps_succ h
    obtain ⟨f, rfl⟩ : ∃ f, fuel = f + 1 := ⟨fuel - 1, by omega⟩
    have same : step { s with tape := [Pins.quiet] } = .next s' := by
      rw [← hs, show s = { s with tape := [] } by rw [← e]]; rfl
    rw [holdUntil_next (before 0 s (by omega) rfl) same]
    exact ih (by omega) (by rw [step_tape hs, e]; rfl) h' fun j u hj hu => before (j + 1) u (by omega) (by rw [runSteps_next _ hs]; exact hu)

end Sys2Proof.Machine
end

