-- ==== Sys2Proof/Laws/PerInstr.lean ====
section
/-! SUPPORT. What is said of every operation as syntax, one lemma per constructor. Family `TableRow`: its
word is on the wires of the format of its row of spec/opcode_table.json, and `selector AND mask = match`
for the row's own mask and match (30_encoding.md R71). -/

namespace Sys2Proof

/-- The three formats (30_encoding.md R70). -/
inductive Laws.TableFormat where
  | h | e | u
  deriving DecidableEq, Repr

/-- The wires a word is on. -/
def Laws.formatOf : Wire → Laws.TableFormat
  | .cmd _ => .h
  | .mae _ => .e
  | .phase _ => .u

/-- Format, `match` and `mask` of an operation's row, copied from spec/opcode_table.json. -/
def Laws.row : Instr → Laws.TableFormat × Nat × Nat
  | .add _ _ => (.h, 0x0, 0x7)
  | .mul _ _ => (.h, 0x1, 0x7)
  | .sbox _ _ => (.h, 0x2, 0x7)
  | .reserved011 _ _ => (.h, 0x3, 0x7)
  | .start _ _ => (.h, 0x4, 0x7)
  | .reserved101 _ _ => (.h, 0x5, 0x7)
  | .reserved110 _ _ => (.h, 0x6, 0x7)
  | .reserved111 _ _ => (.h, 0x7, 0x7)
  | .maeAdd _ _ => (.e, 0x0, 0x3)
  | .maeMul _ _ => (.e, 0x1, 0x3)
  | .maeSbox _ _ => (.e, 0x2, 0x3)
  | .idle => (.u, 0x0, 0x7)
  | .check => (.u, 0x1, 0x7)
  | .unpack => (.u, 0x2, 0x7)
  | .keyadd => (.u, 0x3, 0x7)
  | .sboxl => (.u, 0x4, 0x7)
  | .mix => (.u, 0x5, 0x7)
  | .pack => (.u, 0x6, 0x7)

/-- The word of the operation belongs to the operation's row. -/
def Laws.TableRow.Statement (i : Instr) : Prop :=
  Laws.formatOf (encode i) = (Laws.row i).1 ∧ (encode i).selector &&& (Laws.row i).2.2 = (Laws.row i).2.1

namespace Laws.TableRow

theorem add (a b : Word) : Statement (.add a b) := by simp [Statement, encode, formatOf, row, Wire.selector]
theorem mul (a b : Word) : Statement (.mul a b) := by simp [Statement, encode, formatOf, row, Wire.selector]
theorem sbox (a b : Word) : Statement (.sbox a b) := by simp [Statement, encode, formatOf, row, Wire.selector]
theorem reserved011 (a b : Word) : Statement (.reserved011 a b) := by simp [Statement, encode, formatOf, row, Wire.selector]
theorem start (n b : Word) : Statement (.start n b) := by simp [Statement, encode, formatOf, row, Wire.selector]
theorem reserved101 (a b : Word) : Statement (.reserved101 a b) := by simp [Statement, encode, formatOf, row, Wire.selector]
theorem reserved110 (a b : Word) : Statement (.reserved110 a b) := by simp [Statement, encode, formatOf, row, Wire.selector]
theorem reserved111 (a b : Word) : Statement (.reserved111 a b) := by simp [Statement, encode, formatOf, row, Wire.selector]
theorem maeAdd (a b : Word) : Statement (.maeAdd a b) := by simp [Statement, encode, formatOf, row, Wire.selector]
theorem maeMul (a b : Word) : Statement (.maeMul a b) := by simp [Statement, encode, formatOf, row, Wire.selector]
theorem maeSbox (a b : Word) : Statement (.maeSbox a b) := by simp [Statement, encode, formatOf, row, Wire.selector]
theorem idle : Statement .idle := by unfold Statement; decide
theorem check : Statement .check := by unfold Statement; decide
theorem unpack : Statement .unpack := by unfold Statement; decide
theorem keyadd : Statement .keyadd := by unfold Statement; decide
theorem sboxl : Statement .sboxl := by unfold Statement; decide
theorem mix : Statement .mix := by unfold Statement; decide
theorem pack : Statement .pack := by unfold Statement; decide

end Laws.TableRow

end Sys2Proof
end

