-- ==== Sys2Proof/WellFormed.lean ====
section
/-! DEFINITION. Which operations are well formed. Operand widths are in the types, so the one check left
is the domain of MAE.ADD, the only operation whose encoding admits operands on which the spec defines no
operation (40_engine_ops.md R91, R92). -/

namespace Sys2Proof

/-- The operation is one the spec defines. A command with an operand outside the field is well formed:
it faults, and the spec says how (40_engine_ops.md R95 to R97). -/
def Instr.wellFormed : Instr → Bool
  | .add _ _ => true
  | .mul _ _ => true
  | .sbox _ _ => true
  | .reserved011 _ _ => true
  | .start _ _ => true
  | .reserved101 _ _ => true
  | .reserved110 _ _ => true
  | .reserved111 _ _ => true
  | .maeAdd a _ => decide (a.toNat < Machine.modulus)
  | .maeMul _ _ => true
  | .maeSbox _ _ => true
  | .idle => true
  | .check => true
  | .unpack => true
  | .keyadd => true
  | .sboxl => true
  | .mix => true
  | .pack => true

end Sys2Proof
end

