-- ==== Sys2Proof/Tests/Slice0.lean ====
section
/-! SUPPORT. Tests. Every expected value is copied from spec/95_test_vectors.md (its row is named) or from
the rule named; then, for each statement with hypotheses, a witness that they can be met, clause by clause. -/

namespace Sys2Proof.Tests

open Sys2Proof.Machine

/-- The answer is a next state with a property. -/
def goesTo (o : Result) (p : State → Bool) : Bool :=
  match o with
  | .next t => p t
  | .fault _ => false
  | .refused _ => false

/-- The answer is a refusal of this kind. -/
def isRefused (o : Result) (why : Refusal) : Bool :=
  match o with
  | .next _ => false
  | .fault _ => false
  | .refused r => decide (r = why)

/-- A state in the middle of the first of two permutations. -/
def mid (p : Phase) (r : Fin 3) (l0 l1 l2 : Word) : State :=
  { State.reset with n := 2, ph := p, rnd := r, lanes := { l0 := l0, l1 := l1, l2 := l2 } }

/-- The block after a fault. -/
def faulty : State := { State.reset with err := true, ecode := .domain }

/-- The state with these input wires at the coming step. -/
def at1 (s : State) (p : Pins) : State := { s with tape := [p] }

/-- `P - 1`, the largest field element, and `P`. -/
abbrev top : Word := 0x7FFFFFFFFFFFFFFE#64
abbrev P64 : Word := 0x7FFFFFFFFFFFFFFF#64

/-! ### Well-formedness, each check with a term it refuses -/

theorem test_wf_mae_add_P : Instr.wellFormed (.maeAdd P64 0) = false := by decide
theorem test_wf_mae_add_top : Instr.wellFormed (.maeAdd top 0xFFFFFFFFFFFFFFFF#64) = true := by decide
theorem test_wf_add_P : Instr.wellFormed (.add P64 0) = true := by decide

/-! ### Decoding words written out from 30_encoding.md R71 to R77 -/

/-- P6b, first line: `CW = {000, 3, 4}`. -/
theorem test_dec_add : decode (.cmd 0x000000000000000030000000000000004#131) = .ok (.add 3 4) := by decide
/-- P1, first line. -/
theorem test_dec_mul : decode (.cmd 0x11234567890ABCDEF1234567890ABCDEF#131) =
    .ok (.mul 0x1234567890ABCDEF 0x1234567890ABCDEF) := by decide
/-- P1, SBOX line. -/
theorem test_dec_sbox : decode (.cmd 0x21234567890ABCDEF0000000000000000#131) = .ok (.sbox 0x1234567890ABCDEF 0) := by decide
theorem test_dec_res011 : decode (.cmd 0x300000000000000010000000000000002#131) = .ok (.reserved011 1 2) := by decide
/-- P3, first line. -/
theorem test_dec_start : decode (.cmd 0x400000000000000010000000000000000#131) = .ok (.start 1 0) := by decide
theorem test_dec_res101 : decode (.cmd 0x500000000000000010000000000000002#131) = .ok (.reserved101 1 2) := by decide
theorem test_dec_res110 : decode (.cmd 0x600000000000000010000000000000002#131) = .ok (.reserved110 1 2) := by decide
/-- P6a, first line. -/
theorem test_dec_res111 : decode (.cmd 0x7AAAAAAAAAAAAAAAA5555555555555555#131) =
    .ok (.reserved111 0xAAAAAAAAAAAAAAAA 0x5555555555555555) := by decide
theorem test_dec_mae_add : decode (.mae 0x000000000000000050000000000000007#130) = .ok (.maeAdd 5 7) := by decide
theorem test_dec_mae_mul : decode (.mae 0x100000000000000050000000000000007#130) = .ok (.maeMul 5 7) := by decide
theorem test_dec_mae_sbox : decode (.mae 0x200000000000000050000000000000007#130) = .ok (.maeSbox 5 7) := by decide
theorem test_dec_mae_11 : decode (.mae 0x300000000000000050000000000000007#130) = .error .reservedMaeOp := by decide
theorem test_dec_idle : decode (.phase 0b000#3) = .ok .idle := by decide
theorem test_dec_check : decode (.phase 0b001#3) = .ok .check := by decide
theorem test_dec_unpack : decode (.phase 0b010#3) = .ok .unpack := by decide
theorem test_dec_keyadd : decode (.phase 0b011#3) = .ok .keyadd := by decide
theorem test_dec_sboxl : decode (.phase 0b100#3) = .ok .sboxl := by decide
theorem test_dec_mix : decode (.phase 0b101#3) = .ok .mix := by decide
theorem test_dec_pack : decode (.phase 0b110#3) = .ok .pack := by decide
theorem test_dec_phase_111 : decode (.phase 0b111#3) = .error .unreachedPhase := by decide
/-- Words numbered as the table numbers them: a selector alone, and a whole command word. -/
theorem test_table_selector : decodeTableWord 8 0x4 = some (.start 0 0) ∧ decodeTableWord 3 0x4 = some .sboxl ∧
    decodeTableWord 130 0x2 = some (.maeSbox 0 0) := by decide
theorem test_table_word : decodeTableWord 136 0x400000000000000010000000000000000 = some (.start 1 0) := by decide
theorem test_table_none : decodeTableWord 3 0x7 = none ∧ decodeTableWord 130 0x3 = none ∧ decodeTableWord 8 0x8 = none := by decide

/-! ### One step of each operation -/

/-- A5. -/
theorem test_add_wraps : goesTo (exec (.add top 1) State.reset) (fun t => t.r = 0 ∧ t.status = 0x01) = true := by decide
/-- F3. -/
theorem test_add_raw_key : goesTo (exec (.add 1 0xFEDCBA0987654321) State.reset) (fun t => t.r = 0 ∧ t.status = 0x28) = true := by decide
/-- M10. -/
theorem test_mul : goesTo (exec (.mul 0x1234567890ABCDEF 0x1234567890ABCDEF) State.reset) (fun t => t.r = 0x28DE2CC20802F69A) = true := by decide
/-- F5, with `R` = 7. -/
theorem test_mul_fault : goesTo (exec (.mul 0x8000000000000000 1) { State.reset with r := 7 })
    (fun t => t.r = 7 ∧ t.status = 0x28) = true := by decide
/-- X11. -/
theorem test_sbox : goesTo (exec (.sbox 0x1234567890ABCDEF 0) State.reset) (fun t => t.r = 0x4C9AF138D47B90C6) = true := by decide
/-- F7. -/
theorem test_sbox_ignores_b : goesTo (exec (.sbox 2 0xFFFFFFFFFFFFFFFF) State.reset) (fun t => t.r = 0x20 ∧ t.status = 0x01) = true := by decide
/-- F8 to F11. -/
theorem test_res011 : goesTo (exec (.reserved011 P64 0) State.reset) (fun t => t.status = 0x18) = true := by decide
theorem test_res101 : goesTo (exec (.reserved101 1 2) State.reset) (fun t => t.status = 0x18) = true := by decide
theorem test_res110 : goesTo (exec (.reserved110 1 2) State.reset) (fun t => t.status = 0x18) = true := by decide
theorem test_res111 : goesTo (exec (.reserved111 0xAAAAAAAAAAAAAAAA 0x5555555555555555) State.reset) (fun t => t.status = 0x18) = true := by decide
/-- F12. -/
theorem test_start : goesTo (exec (.start 0xFFFFFFFFFFFFFFFF 0x1234) State.reset)
    (fun t => t.n = 0xFFFFFFFFFFFFFFFF ∧ t.ph = .check ∧ t.status = 0x02) = true := by decide
/-- P5, second START: the previous digest is cleared. -/
theorem test_start_clears : goesTo (exec (.start 1 0) { State.reset with d := [(0, 0x19)], done := true, n := 2, i := 2 })
    (fun t => t.d = [] ∧ t.i = 0 ∧ t.done = false ∧ t.observe.digestOut = 0) = true := by decide
/-- B12 (unreduced), and 93_implementation_defined.md U1. -/
theorem test_mae_add : goesTo (exec (.maeAdd 0x4C9AF138D47B90C6 0xFEDCBA0987654321) State.reset)
    (fun t => t.maeR = 0xCB77AB425BE0D3E8 ∧ t.r = 0) = true := by decide
theorem test_mae_add_refused : isRefused (exec (.maeAdd P64 0) State.reset) .addOutsideDomain = true := by decide
/-- M19. -/
theorem test_mae_mul : goesTo (exec (.maeMul 0xFFFFFFFFFFFFFFFF 0xFFFFFFFFFFFFFFFF) State.reset) (fun t => t.maeR = 1) = true := by decide
/-- X15. -/
theorem test_mae_sbox : goesTo (exec (.maeSbox 0xCB77AB425BE0D3E8 0) State.reset) (fun t => t.maeR = 0x48E0D34E50D3CF27) = true := by decide
/-- 41_sequencer_ops.md R118. -/
theorem test_idle_holds : goesTo (step (at1 faulty Pins.quiet)) (fun t => t = faulty) = true := by decide
/-- R112, its example. -/
theorem test_check_ends : goesTo (step { mid .check 0 0 0 0 with i := 5, n := 5 })
    (fun t => t.done ∧ t.ph = .idle ∧ t.status = 0x05) = true := by decide
theorem test_check_goes_on : goesTo (step { mid .check 0 0 0 0 with i := 4, n := 5 }) (fun t => !t.done ∧ t.ph = .unpack) = true := by decide
/-- Q2. -/
theorem test_unpack : goesTo (step { mid .unpack 2 9 9 9 with d := [(0, 0xE8), (1, 6), (2, 0x34), (3, 0x8B), (4, 0xE9), (5, 0x0F), (6, 0xCA), (7, 0x12)] })
    (fun t => t.lanes = { l0 := 0x12CA0FE98B3406E8, l1 := 0, l2 := 0 } ∧ t.rnd = 0 ∧ t.ph = .keyadd) = true := by decide
/-- Q6, in lane 1. -/
theorem test_unpack_reduces : goesTo (step { mid .unpack 2 9 9 9 with d := [(15, 0x80)] })
    (fun t => t.lanes = { l0 := 0, l1 := 1, l2 := 0 }) = true := by decide
/-- B4 and B6. -/
theorem test_keyadd_unreduced : goesTo (step (mid .keyadd 1 0x012345F6789ABCDD 5 6))
    (fun t => t.lanes = { l0 := P64, l1 := 5, l2 := 6 } ∧ t.ph = .sboxl) = true := by decide
theorem test_keyadd_reduced : goesTo (step (mid .keyadd 2 0x215241103501453F 5 6)) (fun t => t.lanes.l0 = top ∧ t.rnd = 2) = true := by decide
/-- X15. -/
theorem test_sboxl : goesTo (step (mid .sboxl 1 0xCB77AB425BE0D3E8 5 6))
    (fun t => t.lanes = { l0 := 0x48E0D34E50D3CF27, l1 := 5, l2 := 6 } ∧ t.ph = .mix) = true := by decide
/-- Z12, then round 2; and Z6 in the last round. -/
theorem test_mix : goesTo (step (mid .mix 1 0x48E0D34E50D3CF27 0x4C9AF138D47B90C6 0x4C9AF138D47B90C6))
    (fun t => t.lanes = { l0 := 0x6216B5BFF9CAF0B4, l1 := 0x2EB1A6F8CE46817B, l2 := 0x7B4C9831A2C21241 } ∧ t.rnd = 2 ∧ t.ph = .keyadd) = true := by decide
theorem test_mix_last : goesTo (step (mid .mix 2 1 2 3)) (fun t => t.lanes = { l0 := 6, l1 := 8, l2 := 0xC } ∧ t.rnd = 2 ∧ t.ph = .pack) = true := by decide
/-- K1. -/
theorem test_pack : goesTo (step (mid .pack 2 0x12CA0FE98B3406E8 0x417BB6E2597A8863 0x0963404CD0B82B6C))
    (fun t => beNat t.d.digest = 0xe806348be90fca1263887a59e2b67b416c2bb8d04c4063090000000000000000 ∧ t.i = 1 ∧ t.ph = .check) = true := by decide
theorem test_pack_wf : goesTo (step { mid .pack 2 0 0x100 0 with d := [(0, 5), (31, 7)] })
    (fun t => t.d = [(9, 1), (31, 7)] ∧ t.d.wf) = true := by decide

/-! ### Reset, the port, the adapters, scripts -/

/-- 70_reset_and_hazards.md R170: reset beats a command on the port. -/
theorem test_reset_wins : goesTo (step (at1 { mid .mix 1 7 8 9 with r := 3 } { Pins.ofCommand 0b100#3 5 0 with rst := true }))
    (fun t => t = State.reset) = true := by decide
/-- 30_encoding.md R86: during a run a command has no effect. -/
theorem test_busy_command : goesTo (step (at1 (mid .sboxl 0 2 0 0) (Pins.ofCommand 0b000#3 1 2)))
    (fun t => t.r = 0 ∧ t.lanes.l0 = 0x20) = true := by decide
/-- A word placed runs next. -/
theorem test_withFetchWord : goesTo (step (State.reset.withFetchWord 8 0x7)) (fun t => t.status = 0x18) = true := by decide
/-- N of 42_boundary_adapters.md R141, R142. -/
theorem test_decodeN : (decodeN [5, 0, 0, 0, 0, 0, 0, 0]).toOption = some 5 ∧ (decodeN [5, 0, 0, 0, 0, 0, 0]).toOption = none := by decide
/-- R143, its example. -/
theorem test_emitWords : emitWords ([0xE8, 0x06, 0x34, 0x8B] ++ zeroBytes 28) = some [0xE806348B, 0, 0, 0, 0, 0, 0, 0] := by decide
/-- 30_encoding.md R85: `SQR x` is `MUL x, x`; R84: a line of P6a. -/
theorem test_parse : parseLine "SQR R".toList = some [.mul .res .res] ∧
    parseLine "RAW 7, 0xAAAAAAAAAAAAAAAA, 0x5555555555555555 ; op".toList =
      some [.raw 7 (.num 0xAAAAAAAAAAAAAAAA) (.num 0x5555555555555555)] := by decide
/-- A line of blanks alone, as log entry 15 reads it. -/
theorem test_parse_blank : parseLine " ".toList = some [.comment] ∧ parseLine [] = some [.comment] := by decide

/-- The block that faulted after a run, with the digest of that run still shown. -/
def faultyDone : State := { faulty with done := true, d := [(0, 5)] }
/-- 42_boundary_adapters.md R145 with 70_reset_and_hazards.md R175, R186: an old digest is not the hash. -/
theorem test_pipeline_faulted : faultyDone.showsDone = true ∧ hashWordsOnBlock 3 (zeroBytes 8) faultyDone = .waiting := by decide
/-- 30_encoding.md R86: START is held until the run before is over, and then has its own run; `iterate(0)` is zero. -/
theorem test_pipeline_busy : hashWordsOnBlock 1 (zeroBytes 8) { mid .check 0 0 0 0 with i := 2, d := [(0, 5)] } =
    .emitted (List.replicate 8 0) := by decide

/-! ### Witnesses: the hypotheses of each statement, met -/

/-- Ready, faulted and busy states; operands at the edge of the field. -/
theorem test_witness_AddCommandSetsResultOrFaults : State.reset.ready = true ∧ top.toNat < modulus ∧ modulus ≤ P64.toNat ∧
    faulty.ready = false ∧ (mid .mix 0 0 0 0).ready = false := by decide
theorem test_witness_MulCommandSetsResultOrFaults : State.reset.ready = true ∧ top.toNat < modulus ∧ modulus ≤ P64.toNat ∧
    faulty.ready = false := by decide
theorem test_witness_SboxCommandSetsFifthPowerOrFaults : State.reset.ready = true ∧ top.toNat < modulus ∧ modulus ≤ P64.toNat ∧
    faulty.ready = false := by decide
theorem test_witness_ReservedCommandsTakeIllegalFault : State.reset.ready = true ∧ faulty.ready = false ∧
    (0b111#3, Instr.reserved111 1 2) ∈ [(0b011#3, Instr.reserved011 1 2), (0b101#3, .reserved101 1 2), (0b110#3, .reserved110 1 2),
      (0b111#3, .reserved111 1 2)] := by decide
theorem test_witness_StartCommandBeginsRun : State.reset.ready = true ∧ State.reset.d.wf = true ∧ faulty.ready = false := by decide
/-- `a + b` at `P - 1`, `P`, `2P - 1` and `2P`; `b` at `P - 1` and `P`. -/
theorem test_witness_AddAlgorithmSubtractsModulusOnce : top.toNat < modulus ∧ (0 : Word).toNat + top.toNat < modulus ∧
    modulus ≤ (0 : Word).toNat + P64.toNat ∧ modulus ≤ P64.toNat ∧ top.toNat + P64.toNat < 2 * modulus ∧
    2 * modulus ≤ top.toNat + (P64 + 1).toNat := by decide
theorem test_witness_MaeDrivenAloneShowsResult : top.toNat < modulus ∧ modulus ≤ P64.toNat ∧
    modulus ≤ top.toNat + (1 : Word).toNat := by decide
theorem test_witness_EngineKeepsFieldElements : top.toNat < modulus ∧ (0 : Word).toNat < modulus := by decide
/-- B9: the largest sum. -/
theorem test_witness_UnreducedSumDoesNoHarm : top.toNat < modulus ∧ mae .add top 0xFFFFFFFFFFFFFFFF = some 0xFFFFFFFFFFFFFFFE ∧
    mae .add top (BitVec.ofNat 64 ((0xFFFFFFFFFFFFFFFF : Word).toNat % modulus)) = some 0 := by decide
theorem test_witness_CheckEndsRunOrGoesOn : (mid .check 0 0 0 0).ph = .check ∧ (mid .check 0 0 0 0).i ≠ (mid .check 0 0 0 0).n ∧
    ({ mid .check 0 0 0 0 with i := 2 } : State).i = (mid .check 0 0 0 0).n := by decide
theorem test_witness_UnpackReducesChunksIntoLanes : (mid .unpack 2 9 9 9).ph = .unpack := by decide
/-- Each round, with lane 0 on both sides of each bound (B3, B4, B6, B7). -/
theorem test_witness_KeyaddAddsRoundKeyToLaneZero :
    ((mid .keyadd 0 top 0 0).ph = .keyadd ∧ (mid .keyadd 0 top 0 0).lanes.l0.toNat < modulus) ∧
    (mid .keyadd 1 0x012345F6789ABCDC 0 0).lanes.l0.toNat < modulus ∧ (mid .keyadd 1 0x012345F6789ABCDD 0 0).lanes.l0.toNat < modulus ∧
    (mid .keyadd 2 0x215241103501453F 0 0).lanes.l0.toNat < modulus ∧ (mid .keyadd 2 0x2152411035014540 0 0).lanes.l0.toNat < modulus := by decide
theorem test_witness_AddOutsideDomainStopsSequencer : modulus ≤ (mid .keyadd 0 P64 0 0).lanes.l0.toNat ∧
    (mid .keyadd 0 P64 0 0).ph = .keyadd ∧ (mid .mix 0 P64 0 0).ph = .mix := by decide
theorem test_witness_SboxlRaisesLaneZeroToFifthPower : (mid .sboxl 1 0xFEDCBA0987654320 0 0).ph = .sboxl := by decide

theorem test_reduced : (mid .mix 2 top top top).lanes.reduced ∧ (mid .mix 0 0 top 1).lanes.reduced := by
  constructor <;> intro j <;> fin_cases j <;> decide
theorem test_witness_MixMultipliesSnapshotByMatrix : ((mid .mix 2 top top top).ph = .mix ∧ (mid .mix 2 top top top).lanes.reduced) ∧
    ((mid .mix 0 0 top 1).ph = .mix ∧ (mid .mix 0 0 top 1).lanes.reduced) := ⟨⟨rfl, test_reduced.1⟩, rfl, test_reduced.2⟩
theorem test_witness_MixSumsAreMatrixRows : (mid .mix 2 top top top).lanes.reduced := test_reduced.1
/-- `I` on both sides of its last value. -/
theorem test_witness_PackWritesLanesLittleEndian : (mid .pack 2 1 2 3).ph = .pack ∧
    ({ mid .pack 2 1 2 3 with i := 0xFFFFFFFFFFFFFFFE } : State).i.toNat + 1 < 2 ^ 64 ∧ (mid .pack 2 1 2 3).d.wf = true := by decide
theorem test_witness_IdleHoldsUntilStartIsAccepted :
    (State.reset.ph = .idle ∧ State.reset.pins.rst = false ∧ State.reset.pins.cmdValid = false ∧ State.reset.pins.mae = none) ∧
    goesTo (step (at1 State.reset (Pins.ofCommand 0b100#3 1 0))) (fun t => t.ph ≠ .idle) = true := by decide
theorem test_witness_UnselectedMicroOperationDoesNothing : decode (.phase Phase.mix.code) = .ok .mix ∧ State.reset.ph ≠ .mix := by decide
theorem test_witness_MicroOperationsNeverStopOrFault : (mid .mix 2 top top top).ph ≠ .idle ∧ (mid .mix 2 top top top).pins.rst = false ∧
    (mid .mix 2 top top top).lanes.reduced := ⟨by decide, rfl, test_reduced.1⟩
/-- Busy; a command presented; the MAE port driven, ready and faulted; nothing driven. -/
theorem test_witness_StepRunsDecodedOperation :
    ((mid .mix 0 0 0 0).pins.rst = false ∧ (mid .mix 0 0 0 0).ph ≠ .idle ∧ decode (.phase (mid .mix 0 0 0 0).ph.code) = .ok .mix) ∧
    ((at1 State.reset (Pins.ofCommand 0b010#3 2 7)).ready = true ∧
      decode (.cmd (at1 State.reset (Pins.ofCommand 0b010#3 2 7)).pins.word) = .ok (.sbox 2 7)) ∧
    ((at1 faulty { Pins.quiet with mae := some { op := 1, a := 2, b := 3 } }).ready = false ∧
      decode (.mae (MaeDrive.word { op := 1, a := 2, b := 3 })) = .ok (.maeMul 2 3)) ∧
    (State.reset.ph = .idle ∧ State.reset.pins.cmdValid = false ∧ State.reset.pins.mae = none) := by decide
theorem test_witness_PlacedWordRunsNext : decodeTableWord 136 0x400000000000000010000000000000000 = some (.start 1 0) ∧
    decodeTableWord 3 0x6 = some .pack ∧ decodeTableWord 130 0x2 = some (.maeSbox 0 0) := by decide
theorem test_witness_ResetStepGivesResetState : (at1 (mid .mix 0 1 2 3) { Pins.ofCommand 0b100#3 5 0 with rst := true }).pins.rst = true := by decide
theorem test_witness_CommandWhileNotReadyHasNoEffect : faulty.ready = false ∧ (mid .check 0 0 0 0).ready = false := by decide
theorem test_witness_FaultedBlockIsQuiescentUntilReset : (faulty.ph = .idle ∧ faulty.err = true) ∧ faulty.pins.mae = none ∧
    faulty.pins.rst = false ∧ (at1 faulty Pins.reset).pins.rst = true ∧ goesTo (step faulty) (fun t => t = faulty) = true := by decide

/-- A step of each row of the table of 41_sequencer_ops.md R119. -/
theorem test_witness_SequencerPositionAdvancesByTable :
    (∀ s ∈ [at1 faulty Pins.reset, at1 State.reset (Pins.ofCommand 0b100#3 7 0), at1 State.reset (Pins.ofCommand 0b001#3 7 2),
        at1 State.reset (Pins.ofCommand 0b001#3 7 P64), State.reset, { mid .check 0 0 0 0 with i := 2 }, mid .check 0 0 0 0,
        mid .unpack 2 0 0 0, mid .keyadd 1 top 0 0, mid .sboxl 1 P64 0 0, mid .mix 1 0 0 0, mid .mix 2 0 0 0,
        mid .pack 2 1 2 3],
      goesTo (step s) (fun _ => true) = true) ∧
    (at1 State.reset (Pins.ofCommand 0b100#3 7 0)).pins.cmdOp = 0b100#3 ∧
    (at1 State.reset (Pins.ofCommand 0b001#3 7 0)).pins.cmdOp.toNat ≤ 2 := by decide
theorem test_witness_EngineAndSequencerAreIsolated : goesTo (exec (.mul 3 5) State.reset) (fun _ => true) = true ∧
    goesTo (exec (.mul 3 P64) State.reset) (fun _ => true) = true ∧ (mid .keyadd 1 top 0 0).ph = .keyadd ∧
    goesTo (step (mid .keyadd 1 top 0 0)) (fun _ => true) = true := by decide
theorem test_witness_EachRegisterHasOnlyItsWriters : (mid .pack 2 1 2 3).pins.rst = false ∧
    goesTo (step (mid .pack 2 1 2 3)) (fun _ => true) = true := by decide
/-- A step that faults, for each cause, and a step of a faulted block. -/
theorem test_witness_FaultsArePreciseAndStick :
    goesTo (step (at1 State.reset (Pins.ofCommand 0b000#3 0 P64))) (fun t => t.err ≠ false ∧ t.ecode = .domain) = true ∧
    goesTo (step (at1 State.reset (Pins.ofCommand 0b110#3 0 0))) (fun t => t.err ≠ false ∧ t.ecode = .illCmd) = true ∧
    goesTo (step faulty) (fun t => t.err) = true := by decide
theorem test_acceptsFaulting : (at1 State.reset (Pins.ofCommand 0b000#3 0 P64)).acceptsFaulting .domain ∧
    (at1 State.reset (Pins.ofCommand 0b110#3 0 0)).acceptsFaulting .illCmd :=
  ⟨⟨by unfold State.acceptsEngine; decide, by decide⟩, by unfold State.acceptsFaulting; decide⟩

/-- An invariant state that is not the reset state: the second permutation of three, after a KEYADD that left lane 0
unreduced, and the same with other lanes and another digest. -/
def inRun : State := { mid .sboxl 1 0xFEDCBA0987654320 top 2 with i := 1, n := 3, d := [(0, 5), (23, 0x7F)], r := 7 }
def inRun' : State := { inRun with lanes := { l0 := 1, l1 := 2, l2 := 3 }, d := [(8, 9)] }
theorem test_inv_inRun : Inv inRun where
  memory := by decide
  lane1 := by decide
  lane2 := by decide
  lane0 := by decide
  lane0Unreduced := by decide
  tail := by
    intro a h
    have h0 : ¬ 0 = a := by omega
    have h1 : ¬ 23 = a := by omega
    simp [inRun, Memory.read, h0, h1]
  chunks := by decide
  result := by decide
  count := by decide
  running := by decide
  doneIdle := by decide
  errIdle := by decide
  cause := by decide
theorem test_inv_inRun' : Inv inRun' where
  memory := by decide
  lane1 := by decide
  lane2 := by decide
  lane0 := by decide
  lane0Unreduced := by decide
  tail := by
    intro a h
    have h0 : ¬ 8 = a := by omega
    simp [inRun', Memory.read, h0]
  chunks := by decide
  result := by decide
  count := by decide
  running := by decide
  doneIdle := by decide
  errIdle := by decide
  cause := by decide
theorem test_witness_EveryStepKeepsInvariants : Inv inRun ∧ ∃ t, step inRun = .next t := ⟨test_inv_inRun, _, rfl⟩
theorem test_witness_InvariantsMakeEveryStepGoOn : Inv inRun ∧ inRun.maeInDomain :=
  ⟨test_inv_inRun, by intro m h; exact nomatch h⟩
/-- `MAE` driven inside its domain. -/
theorem test_witness_maeInDomain : (at1 State.reset { Pins.quiet with mae := some { op := 0, a := top, b := P64 } }).maeInDomain := by
  intro m h
  cases h
  decide
theorem test_witness_ThreeMicroOperationsAreOneRound : (mid .keyadd 2 top top top).ph = .keyadd ∧ (mid .keyadd 2 top top top).lanes.reduced ∧
    (mid .keyadd 2 top top top).noReset 3 := ⟨rfl, test_reduced.1, by unfold State.noReset; decide⟩
theorem test_witness_ElevenStepsAreOnePermutation : inRun.i.toNat + 1 < 2 ^ 64 ∧ (mid .unpack 0 0 0 0).ph = .unpack ∧
    (∀ a, 24 ≤ a → a < 32 → (mid .unpack 0 0 0 0).d.read a = 0) ∧ (mid .unpack 0 0 0 0).i.toNat + 1 < 2 ^ 64 ∧
    (mid .unpack 0 0 0 0).noReset 11 := ⟨by decide, rfl, fun _ _ _ => rfl, by decide, by unfold State.noReset; decide⟩
/-- START 0, the shortest run; and a faulted block with `DONE = 1`. -/
theorem test_witness_RunComputesIterate : ((State.reset.presentStart 0).ready = true ∧ (State.reset.presentStart 0).noReset 2 ∧
    (State.reset.presentStart 0).pins.cmdValid = true ∧ (State.reset.presentStart 0).pins.word = commandWord 0b100#3 0 0) ∧
    faultyDone.faulted ∧ faultyDone.showsRunEnd :=
  ⟨⟨by decide, by unfold State.noReset; decide, by decide, by decide⟩, ⟨rfl, rfl⟩, rfl, rfl⟩
/-- `k` at both ends of its range. -/
theorem test_witness_RunIsHiddenUntilItsLastStep : (State.reset.presentStart 1).ready = true ∧
    (State.reset.presentStart 1).ecode = .noFault ∧ (State.reset.presentStart 1).noReset (12 * (1 : Word).toNat + 2) ∧
    (State.reset.presentStart 1).pins.cmdValid = true ∧ (State.reset.presentStart 1).pins.word = commandWord 0b100#3 1 0 ∧
    ∀ k ∈ [1, 13], 1 ≤ k ∧ k ≤ 12 * (1 : Word).toNat + 1 :=
  ⟨by decide, by decide, by unfold State.noReset; decide, by decide, by decide, by decide⟩
theorem test_witness_RoundHasClosedForm : (mid .keyadd 2 top top top).lanes.reduced := test_reduced.1
theorem test_witness_UnpackReadsThreeChunks : (zeroBytes 8).length = 8 ∧ (bytesLe64 0xFFFFFFFFFFFFFFFF).length = 8 := by decide
theorem test_witness_PackAndUnpackAreInverse : (mid .mix 2 top top top).lanes.reduced ∧ (zeroBytes 8).length = 8 := ⟨test_reduced.1, by decide⟩
theorem test_witness_PermutationIsTotalWithZeroTail : (List.replicate 32 0xFF : List Byte).length = 32 := by decide
theorem test_witness_IntermediateDigestsStayHidden : Inv inRun ∧ Inv inRun' ∧ inRun.sameControl inRun' ∧
    ∃ t, runSteps 1 inRun = .next t ∧ t.done = false := ⟨test_inv_inRun, test_inv_inRun', rfl, _, rfl, rfl⟩
theorem test_witness_StatusFieldsAndValues : Inv inRun := test_inv_inRun
theorem test_witness_ReadyAndBusyExcludeEachOther : faulty.ready = false ∧ faulty.busy = false ∧ (mid .mix 0 0 0 0).busy = true ∧
    decode (.cmd 0x400000000000000010000000000000000#131) = .ok (.start 1 0) ∧ decode (.phase 0b110#3) = .ok .pack := by decide
theorem test_witness_DigestOutIsGatedAndLittleEndian : ({ State.reset with done := true, d := [(23, 1)] } : State).done = true ∧
    (∀ a, a < 32 → 24 ≤ a → ({ State.reset with done := true, d := [(23, 1)] } : State).d.read a = 0) ∧ State.reset.done = false := by decide
theorem test_witness_ByteOrderFunctions : (zeroBytes 8).length = 8 := by decide
theorem test_witness_InputAdapterDecodesEightBytes : (zeroBytes 8).length = 8 ∧ (zeroBytes 7).length ≠ 8 ∧ (zeroBytes 9).length ≠ 8 := by decide
theorem test_witness_OutputAdapterReadsBigEndianWords : (zeroBytes 32).length = 32 ∧ (zeroBytes 32).drop 24 = zeroBytes 8 ∧
    4 * 7 + 3 < (zeroBytes 32).length := by decide
/-- A ready block; a busy one, at the smallest fuel; another length; a faulted block. -/
theorem test_witness_PipelineOnBlockIsHashWords :
    ((decodeN (zeroBytes 8)).toOption = some 0 ∧ 12 * (0 : Word).toNat + 1 ≤ 1 ∧ State.reset.ready = true) ∧
    (12 * (0 : Word).toNat + 1 ≤ 37 ∧ Inv inRun ∧ inRun.err = false ∧ 12 * inRun.n.toNat + 1 ≤ 37) ∧
    (decodeN (zeroBytes 7)).toOption = none ∧ (zeroBytes 8).length = 8 ∧ faultyDone.faulted :=
  ⟨by decide, ⟨by decide, test_inv_inRun, by decide, by decide⟩, by decide, by decide, rfl, rfl⟩
theorem test_witness_HashPseudoInstructionEndsWithDigest : State.reset.ready = true ∧ 12 * (1 : Word).toNat + 1 ≤ 13 := by decide
theorem test_witness_RunUsesEngineInProportion : (mid .check 0 0 0 0).ph = .check ∧ (mid .check 0 0 0 0).i = 0 ∧
    (mid .check 0 0 0 0).noReset 25 := ⟨rfl, rfl, by unfold State.noReset; decide⟩
theorem test_witness_DecodedWordIsTheEncoding : decode (.cmd 0x7AAAAAAAAAAAAAAAA5555555555555555#131) =
    .ok (.reserved111 0xAAAAAAAAAAAAAAAA 0x5555555555555555) := by decide

end Sys2Proof.Tests
end

section
/-! PROOFS. The family of spec/00_scope.md: the matrix of MIX (R5), the byte-order functions (R11), the
operation a step runs (R15). -/

namespace Sys2Proof.Machine

/-! ### MIX and the matrix of R5 -/

/-- Settles O19: `mixLanes_spec` gives the three sums, and they are the rows of the matrix written out. -/
theorem mixSumsAreMatrixRows : Obligations.MixSumsAreMatrixRows := by
  intro t ht
  obtain ⟨h0, h1, h2⟩ := (reduced_iff t).mp ht
  obtain ⟨v, hv, e0, e1, e2⟩ := mixLanes_spec t h0 h1 h2
  refine ⟨v, hv, ?_⟩
  simp [mixMatrix, e0, e1, e2, Nat.add_assoc]

/-! ### The byte-order functions of R11 -/

/-- Byte `k` of `BYTES_LE64`. -/
theorem bytesLe64_getElem? (v : Word) {k : Nat} (h : k < 8) : (bytesLe64 v)[k]? = some (v.extractLsb' (8 * k) 8) := by
  rw [bytesLe64, List.getElem?_map, List.getElem?_range h, Option.map_some]

/-- `BE32` of 4 bytes loses nothing. -/
theorem be32_toNat {bs : List Byte} (h : bs.length = 4) : (be32 bs).toNat = beNat bs := by
  have hlt : beNat bs < 256 ^ 4 := by simpa [beNat, h] using leNat_lt bs.reverse
  rw [be32, BitVec.toNat_ofNat, Nat.mod_eq_of_lt (hlt.trans_eq (by norm_num))]

/-- The value of 8 bytes, least significant first, as the sum R11 writes. -/
theorem leNat_eight (b0 b1 b2 b3 b4 b5 b6 b7 : Byte) : leNat [b0, b1, b2, b3, b4, b5, b6, b7] =
    b0.toNat + b1.toNat * 2 ^ 8 + b2.toNat * 2 ^ 16 + b3.toNat * 2 ^ 24 + b4.toNat * 2 ^ 32 + b5.toNat * 2 ^ 40 +
      b6.toNat * 2 ^ 48 + b7.toNat * 2 ^ 56 := by
  simp only [leNat]
  ring

/-- The value of 4 bytes, most significant first, as the sum R11 writes. -/
theorem beNat_four (b0 b1 b2 b3 : Byte) : beNat [b0, b1, b2, b3] =
    b0.toNat * 2 ^ 24 + b1.toNat * 2 ^ 16 + b2.toNat * 2 ^ 8 + b3.toNat := by
  simp only [beNat, List.reverse_cons, List.reverse_nil, List.nil_append, List.cons_append, leNat]
  ring

/-- Settles O51: no bits are lost in narrowing, so each function is its sum of bytes; the inverses are
`le64_bytesLe64` and `bytesLe64_le64`. -/
theorem byteOrderFunctions : Obligations.ByteOrderFunctions :=
  ⟨fun b0 b1 b2 b3 b4 b5 b6 b7 => (le64_toNat rfl).trans (leNat_eight b0 b1 b2 b3 b4 b5 b6 b7),
    fun v _ hk => bytesLe64_getElem? v hk,
    fun b0 b1 b2 b3 => (be32_toNat rfl).trans (beNat_four b0 b1 b2 b3),
    le64_bytesLe64, fun _ hb => bytesLe64_le64 hb⟩

/-! ### The operation a step runs, R15 -/

/-- Settles O24: what the step fetches is told by what is enabled, and a step that is no reset runs what it
fetched (`step_runs`). -/
theorem stepRunsDecodedOperation : Obligations.StepRunsDecodedOperation := by
  intro s i hr
  refine ⟨fun hp hd => step_busy hr hp hd, fun hrd hv hd => ?command, fun m hp hn hm hd => ?mae, fun hp hn hm => ?hold⟩
  case command => exact step_runs hr (by rwa [fetch_command hrd hv])
  case mae => exact step_runs hr (by rwa [fetch_mae hp hn hm])
  case hold => exact step_hold hr hp hn hm

end Sys2Proof.Machine
end

section
/-! PROOFS. The family of spec/10_state.md: the invariants of R42 at reset and under every step, what the host
sees before DONE, who writes each piece of state (R20), READY and BUSY (R37), STATUS (R32), `digest_out` (R39). -/

namespace Sys2Proof.Machine

variable {s s' t : State}

/-! ### The invariants, R42: what they say of a state and of the digest register -/

/-- R22: the lanes are reduced except between KEYADD and SBOXL. -/
theorem inv_lanes_reduced (hi : Inv s) (h : s.ph ≠ .sboxl) : s.lanes.reduced :=
  (reduced_iff _).mpr ⟨hi.lane0 h, hi.lane1, hi.lane2⟩

theorem inv_busy_done (hi : Inv s) (h : s.ph ≠ .idle) : s.done = false := by
  cases hd : s.done with
  | false => rfl
  | true => exact absurd (hi.doneIdle hd).1 h

theorem inv_busy_err (hi : Inv s) (h : s.ph ≠ .idle) : s.err = false := by
  cases he : s.err with
  | false => rfl
  | true => exact absurd (hi.errIdle he) h

/-- The invariants say nothing of the input wires. -/
theorem inv_advance (hi : Inv s) : Inv s.advance := { hi with }

/-- R34 in a digest register of zeros. -/
theorem chunks_of_zero {m : Memory} (h : ∀ a, m.read a = 0) (j : Nat) (hj : j < 3) :
    leNat (digestChunk m.digest j) < modulus := by
  have hz : leNat (digestChunk m.digest j) = 0 := by
    rw [leNat_digestChunk m ⟨j, hj⟩]
    simp [Memory.chunkValue, h]
  rw [hz]
  decide

/-- R117, read back: after PACK chunk `j` of the digest register is the value of lane `j`. -/
theorem chunk_packLanes {m m' : Memory} {v : Lanes} (h : packLanes m v = some m') (hz : ∀ a, 24 ≤ a → m.read a = 0)
    (j : Fin 3) : leNat (digestChunk m'.digest j) = (v.lane j).toNat := by
  rw [digest_packLanes h fun a ha _ => hz a ha]
  have hc : digestChunk (packFn v) j = bytesLe64 (v.lane j) := by
    fin_cases j <;> simp [digestChunk, packFn, laneBytes, Lanes.lane, List.drop_append, List.take_append]
  rw [hc, leNat_bytesLe64]

/-- R114, R36: the sum KEYADD makes of a reduced lane is at most the bound of the unreduced lane. -/
theorem keyadd_bound {a v : Word} {r : Fin 3} (ha : a.toNat < modulus) (h : addP a (roundKey r) = some v) :
    v.toNat ≤ 0xFEDCBA0987654320 := by
  have hk : (roundKey r).toNat ≤ 0xFEDCBA0987654321 := by fin_cases r <;> decide
  obtain ⟨w, e, hw⟩ := addP_spec a (roundKey r) ha
  obtain rfl : w = v := Option.some.inj (e.symm.trans h)
  rw [hw]
  rw [modulus_eq] at *
  split <;> omega

/-- UNPACK leaves reduced lanes, whatever the digest register holds. -/
theorem unpackFn_reduced {d : List Byte} {v : Lanes} (h : unpackFn d = some v) : v.reduced := by
  unfold unpackFn at h
  split at h
  · cases h
    have hm : ∀ x, x % modulus < modulus := fun x => Nat.mod_lt x (by decide)
    exact (reduced_iff _).mpr (by simp only [reduce_toNat, hm, and_self])
  · exact nomatch h

/-- MIX leaves reduced lanes reduced. -/
theorem mixLanes_reduced {u v : Lanes} (hu : u.reduced) (h : mixLanes u = some v) : v.reduced := by
  obtain ⟨h0, h1, h2⟩ := (reduced_iff u).mp hu
  obtain ⟨w, e, e0, e1, e2⟩ := mixLanes_spec u h0 h1 h2
  obtain rfl : w = v := Option.some.inj (e.symm.trans h)
  have hm : ∀ x, x % modulus < modulus := fun x => Nat.mod_lt x (by decide)
  exact (reduced_iff _).mpr (by simp only [e0, e1, e2, hm, and_self])

/-! ### Every step keeps the invariants -/

/-- Settles O36: every reset value of R41 is within its bound, and a digest register with nothing listed is zero. -/
theorem resetMeetsInvariants : Obligations.ResetMeetsInvariants where
  memory := by decide
  lane1 := by decide
  lane2 := by decide
  lane0 := by decide
  lane0Unreduced := nofun
  tail := fun _ _ => rfl
  chunks := chunks_of_zero fun _ => rfl
  result := by decide
  count := le_refl _
  running := by decide
  doneIdle := nofun
  errIdle := nofun
  cause := by decide

/-- START: the digest register is zero and nothing is counted yet. -/
theorem inv_start (hi : Inv s) (idle : s.ph = .idle) (ready : s.ready = true) {m : Memory} (n : Word)
    (zero : ∀ x, x < digestBytes → m.read x = 0) (rest : ∀ x, digestBytes ≤ x → m.read x = s.d.read x)
    (wf : s.d.wf = true → m.wf = true) :
    Inv { s.advance with n := n, i := 0, d := m, done := false, ph := .check } := by
  have hz : ∀ a, m.read a = 0 := fun a => by
    rcases Nat.lt_or_ge a digestBytes with ha | ha
    · exact zero a ha
    · rw [rest a ha, hi.tail a (by simp only [digestBytes] at ha; omega)]
  have herr : s.err = false := ((ready_iff s).mp ready).2
  exact { hi with
    memory := wf hi.memory
    lane0 := fun _ => hi.lane0 (by simp [idle])
    lane0Unreduced := nofun
    tail := fun a _ => hz a
    chunks := chunks_of_zero hz
    count := Nat.zero_le _
    running := fun _ h => absurd rfl h
    doneIdle := nofun
    errIdle := fun h => by simp [herr] at h }

/-- A fault is recorded in an idle block, with a cause (R153). -/
theorem inv_raiseFault (hi : Inv s) (idle : s.ph = .idle) {c : ECode} (hc : c ≠ .noFault) : Inv (raiseFault c s) :=
  { hi with
    errIdle := fun _ => idle
    cause := iff_of_true hc rfl }

/-- A run goes on to another phase with new lanes: only the bounds of the lanes are in question. -/
theorem inv_run_moves (hi : Inv s) (busy : s.ph ≠ .idle) (more : s.i.toNat < s.n.toNat) {v : Lanes} {p : Phase} (r : Fin 3)
    (h0 : p ≠ .sboxl → v.l0.toNat < modulus) (h0' : p = .sboxl → v.l0.toNat ≤ 0xFEDCBA0987654320)
    (h1 : v.l1.toNat < modulus) (h2 : v.l2.toNat < modulus) : Inv { s.advance with lanes := v, rnd := r, ph := p } :=
  { hi with
    lane1 := h1
    lane2 := h2
    lane0 := h0
    lane0Unreduced := h0'
    running := fun _ _ => more
    doneIdle := fun h => absurd ((inv_busy_done hi busy).symm.trans h) (by decide)
    errIdle := fun h => absurd ((inv_busy_err hi busy).symm.trans h) (by decide) }

/-- The same, where the new lanes are reduced. -/
theorem inv_run_moves_reduced (hi : Inv s) (busy : s.ph ≠ .idle) (more : s.i.toNat < s.n.toNat) {v : Lanes} {p : Phase}
    (r : Fin 3) (hv : v.reduced) (hp : p ≠ .sboxl) : Inv { s.advance with lanes := v, rnd := r, ph := p } := by
  obtain ⟨h0, h1, h2⟩ := (reduced_iff v).mp hv
  exact inv_run_moves hi busy more r (fun _ => h0) (fun h => absurd h hp) h1 h2

/-- CHECK with `I = N`: the run is over. -/
theorem inv_checkEnd (hi : Inv s) (ph : s.ph = .check) (ended : s.i = s.n) :
    Inv { s.advance with done := true, ph := .idle } :=
  { hi with
    lane0 := fun _ => hi.lane0 (by simp [ph])
    lane0Unreduced := nofun
    running := fun h => absurd rfl h
    doneIdle := fun _ => ⟨rfl, ended⟩
    errIdle := fun _ => rfl }

/-- PACK: the reduced lanes are the new chunks, and with `I < N` the count does not wrap. -/
theorem inv_pack (hi : Inv s) (ph : s.ph = .pack) {m : Memory} (val : packLanes s.d s.lanes = some m) :
    Inv { s.advance with d := m, i := incrementI s.i, ph := .check } := by
  obtain ⟨m', e, -, -, -, ho, hw⟩ := packLanes_spec s.d s.lanes
  obtain rfl : m' = m := Option.some.inj (e.symm.trans val)
  have more := hi.running (by simp [ph]) (by simp [ph])
  have hred := inv_lanes_reduced hi (by simp [ph])
  exact { hi with
    memory := hw hi.memory
    lane0 := fun _ => hi.lane0 (by simp [ph])
    lane0Unreduced := nofun
    tail := fun a ha => (ho a ha).trans (hi.tail a ha)
    chunks := fun j hj => by
      rw [chunk_packLanes val hi.tail ⟨j, hj⟩]
      exact hred _
    count := by
      have hn := s.n.isLt
      simp only [incrementI_toNat (i := s.i) (by omega)]
      exact more
    running := fun _ h => absurd rfl h
    doneIdle := fun h => absurd ((inv_busy_done hi (by simp [ph])).symm.trans h) (by decide)
    errIdle := fun h => absurd ((inv_busy_err hi (by simp [ph])).symm.trans h) (by decide) }

theorem ecode_ne_noFault_of_acceptsFaulting {c : ECode} (h : s.acceptsFaulting c) : c ≠ .noFault := by
  rintro rfl
  exact h

/-- Settles O35, by what a step can do: a command or a hold in an idle block, or a phase of a run. -/
theorem everyStepKeepsInvariants : Obligations.EveryStepKeepsInvariants := by
  intro s t hi h
  cases step_inversion h with
  | reset _ eq => subst eq; exact { resetMeetsInvariants with }
  | start _ ph acc m zero rest wf eq => subst eq; exact inv_start hi ph acc.2.1 _ zero rest wf
  | engine _ _ _ _ v lt eq => subst eq; exact { hi with result := lt }
  | faulting _ ph c acc eq =>
    subst eq
    exact inv_raiseFault (inv_advance hi) ph (ecode_ne_noFault_of_acceptsFaulting acc)
  | hold _ _ _ eq => subst eq; exact inv_advance hi
  | mae _ _ _ v eq => subst eq; exact { hi with }
  | checkEnd _ ph ended eq => subst eq; exact inv_checkEnd hi ph ended
  | checkMore _ ph more eq =>
    subst eq
    have hlt := lt_of_le_of_ne hi.count fun e => more (BitVec.eq_of_toNat_eq e)
    exact inv_run_moves_reduced (v := s.lanes) hi (by simp [ph]) hlt s.rnd (inv_lanes_reduced hi (by simp [ph])) (by decide)
  | unpack _ ph v val eq =>
    subst eq
    exact inv_run_moves_reduced hi (by simp [ph]) (hi.running (by simp [ph]) (by simp [ph])) 0 (unpackFn_reduced val) (by decide)
  | keyadd _ ph v val eq =>
    subst eq
    exact inv_run_moves hi (by simp [ph]) (hi.running (by simp [ph]) (by simp [ph])) s.rnd (fun h => absurd rfl h)
      (fun _ => keyadd_bound (hi.lane0 (by simp [ph])) val) hi.lane1 hi.lane2
  | sboxl _ ph eq =>
    subst eq
    exact inv_run_moves hi (by simp [ph]) (hi.running (by simp [ph]) (by simp [ph])) s.rnd (fun _ => sboxP_lt _) nofun
      hi.lane1 hi.lane2
  | mixLast _ ph _ v val eq =>
    subst eq
    exact inv_run_moves_reduced hi (by simp [ph]) (hi.running (by simp [ph]) (by simp [ph])) s.rnd
      (mixLanes_reduced (inv_lanes_reduced hi (by simp [ph])) val) (by decide)
  | mixNext _ ph _ v val eq =>
    subst eq
    exact inv_run_moves_reduced hi (by simp [ph]) (hi.running (by simp [ph]) (by simp [ph])) (s.rnd + 1)
      (mixLanes_reduced (inv_lanes_reduced hi (by simp [ph])) val) (by decide)
  | pack _ ph m val eq => subst eq; exact inv_pack hi ph val

end Sys2Proof.Machine
end

section
/-! PROOFS. The family of spec/10_state.md, what the host sees: that the lanes and the digest stay hidden until
DONE (R39, R40, R44), STATUS (R32), READY and BUSY (R37), `digest_out` (R39). -/

namespace Sys2Proof.Machine

variable {s s' t : State}

/-! ### Two states of one control state run alike -/

/-- States of one control state are one state with two contents of the lanes and the digest register. -/
theorem sameControl_iff : s.sameControl s' ↔ ∃ (v : Lanes) (m : Memory), s = { s' with lanes := v, d := m } :=
  ⟨fun h => ⟨s.lanes, s.d, h.symm⟩, by rintro ⟨v, m, rfl⟩; rfl⟩

/-- Where the first goes on so does the second, and the next states have one control state. -/
def goesOnAlike (a b : Result) : Prop := ∀ t, a = .next t → ∃ t', b = .next t' ∧ t.sameControl t'

theorem goesOnAlike_next (h : s.sameControl s') : goesOnAlike (.next s) (.next s') := by
  rintro t ⟨⟩
  exact ⟨s', rfl, h⟩

/-- A result of the MAE: the second has one where the first has. -/
theorem goesOnAlike_orAddRefused {α : Type} {v v' : Option α} {k k' : α → State}
    (h : ∀ x, v = some x → ∃ x', v' = some x' ∧ (k x).sameControl (k' x')) :
    goesOnAlike (orAddRefused v k) (orAddRefused v' k') := by
  cases v with
  | none => exact nofun
  | some x =>
    obtain ⟨x', rfl, hk⟩ := h x rfl
    exact goesOnAlike_next hk

theorem goesOnAlike_accept {e e' : Result} (h : s.sameControl s') (he : goesOnAlike e e') :
    goesOnAlike (accept s e) (accept s' e') := by
  have hr : s.ready = s'.ready := by obtain ⟨v, m, rfl⟩ := sameControl_iff.mp h; rfl
  cases hs : s'.ready with
  | false => rw [accept_notReady (hr.trans hs), accept_notReady hs]; exact goesOnAlike_next h
  | true => rwa [accept_ready (hr.trans hs), accept_ready hs]

theorem goesOnAlike_whenPhase {p : Phase} {e e' : Result} (h : s.sameControl s') (he : s'.ph = p → goesOnAlike e e') :
    goesOnAlike (whenPhase p s e) (whenPhase p s' e') := by
  have hp : s.ph = s'.ph := by obtain ⟨v, m, rfl⟩ := sameControl_iff.mp h; rfl
  by_cases hs : s'.ph = p
  · rw [whenPhase_in (hp.trans hs), whenPhase_in hs]; exact he hs
  · rw [whenPhase_out (hp ▸ hs), whenPhase_out hs]; exact goesOnAlike_next h

theorem goesOnAlike_engineCommand (h : s.sameControl s') (d : Bool) (r : Option Word) :
    goesOnAlike (engineCommand d r s) (engineCommand d r s') := by
  refine goesOnAlike_accept h ?_
  obtain ⟨v, m, rfl⟩ := sameControl_iff.mp h
  cases d with
  | false => exact goesOnAlike_next rfl
  | true => exact goesOnAlike_orAddRefused fun x hx => ⟨x, hx, rfl⟩

theorem goesOnAlike_illegalCommand (h : s.sameControl s') : goesOnAlike (illegalCommand s) (illegalCommand s') := by
  refine goesOnAlike_accept h (goesOnAlike_next ?_)
  obtain ⟨v, m, rfl⟩ := sameControl_iff.mp h
  rfl

theorem goesOnAlike_driveMae (h : s.sameControl s') (op : MaeOp) (a b : Word) :
    goesOnAlike (driveMae op a b s) (driveMae op a b s') := by
  obtain ⟨v, m, rfl⟩ := sameControl_iff.mp h
  exact goesOnAlike_orAddRefused fun x hx => ⟨x, hx, rfl⟩

/-- Writing the digest register: both writes are inside it. -/
theorem goesOnAlike_orDigestFault {w w' : Option Memory} {k k' : Memory → State} (hw' : ∃ m', w' = some m')
    (h : ∀ m m', (k m).sameControl (k' m')) : goesOnAlike (orDigestFault w k) (orDigestFault w' k') := by
  obtain ⟨m', rfl⟩ := hw'
  cases w with
  | none => exact nofun
  | some m => exact goesOnAlike_next (h m m')

/-- An operation on two states of one control state: neither a choice of the next control state nor, under the
invariants, a refusal depends on the lanes or the digest. -/
theorem exec_goesOnAlike (h : s.sameControl s') (hi : Inv s') (i : Instr) : goesOnAlike (exec i s) (exec i s') := by
  cases i with
  | add a b => exact goesOnAlike_engineCommand h _ _
  | mul a b => exact goesOnAlike_engineCommand h _ _
  | sbox a b => exact goesOnAlike_engineCommand h _ _
  | reserved011 => exact goesOnAlike_illegalCommand h
  | reserved101 => exact goesOnAlike_illegalCommand h
  | reserved110 => exact goesOnAlike_illegalCommand h
  | reserved111 => exact goesOnAlike_illegalCommand h
  | maeAdd a b => exact goesOnAlike_driveMae h .add a b
  | maeMul a b => exact goesOnAlike_driveMae h .mul a b
  | maeSbox a b => exact goesOnAlike_driveMae h .sbox a b
  | idle => exact goesOnAlike_next h
  | start n b =>
    obtain ⟨m', e', -⟩ := startWrite_spec s'.d
    refine goesOnAlike_accept h (goesOnAlike_orDigestFault ⟨m', e'⟩ fun _ _ => ?_)
    obtain ⟨v, m, rfl⟩ := sameControl_iff.mp h
    rfl
  | check =>
    refine goesOnAlike_whenPhase h fun _ => goesOnAlike_next ?_
    obtain ⟨v, m, rfl⟩ := sameControl_iff.mp h
    by_cases ended : s'.i = s'.n
    · simp only [ended, if_true]; rfl
    · simp only [ended, if_false]; rfl
  | unpack =>
    refine goesOnAlike_whenPhase h fun _ => ?_
    -- the three chunks are inside the digest register, so both reads compute to lanes
    obtain ⟨v, m, rfl⟩ := sameControl_iff.mp h
    exact goesOnAlike_next rfl
  | keyadd =>
    refine goesOnAlike_whenPhase h fun ph => goesOnAlike_orAddRefused fun x _ => ?_
    obtain ⟨x', e', -⟩ := addP_spec s'.lanes.l0 (roundKey s'.rnd) (hi.lane0 (by simp [ph]))
    obtain ⟨v, m, rfl⟩ := sameControl_iff.mp h
    exact ⟨x', e', rfl⟩
  | sboxl =>
    refine goesOnAlike_whenPhase h fun _ => goesOnAlike_next ?_
    obtain ⟨v, m, rfl⟩ := sameControl_iff.mp h
    rfl
  | mix =>
    refine goesOnAlike_whenPhase h fun ph => goesOnAlike_orAddRefused fun x _ => ?_
    obtain ⟨x', e', -⟩ := mixLanes_spec s'.lanes (hi.lane0 (by simp [ph])) hi.lane1 hi.lane2
    refine ⟨x', e', ?_⟩
    obtain ⟨v, m, rfl⟩ := sameControl_iff.mp h
    by_cases last : s'.rnd = lastRound
    · simp only [afterMix, last, if_true]; rfl
    · simp only [afterMix, last, if_false]; rfl
  | pack =>
    obtain ⟨m', e', -⟩ := packLanes_spec s'.d s'.lanes
    refine goesOnAlike_whenPhase h fun _ => goesOnAlike_orDigestFault ⟨m', e'⟩ fun _ _ => ?_
    obtain ⟨v, m, rfl⟩ := sameControl_iff.mp h
    rfl

/-- A step of two states of one control state: both take the same inputs and run the same operation. -/
theorem step_goesOnAlike (h : s.sameControl s') (hi : Inv s') : goesOnAlike (step s) (step s') := by
  have hadv : s.advance.sameControl s'.advance := by obtain ⟨v, m, rfl⟩ := sameControl_iff.mp h; rfl
  have hpins : s.pins = s'.pins := by obtain ⟨v, m, rfl⟩ := sameControl_iff.mp h; rfl
  have hfetch : s.fetch = s'.fetch := by obtain ⟨v, m, rfl⟩ := sameControl_iff.mp h; rfl
  have hreset : takeReset s = takeReset s' := by obtain ⟨v, m, rfl⟩ := sameControl_iff.mp h; rfl
  rcases step_cases (s := s) with ⟨hr, e⟩ | ⟨hr, i, hd, e⟩ | ⟨-, x, -, e⟩
  · rw [e, step_reset (hpins ▸ hr), hreset]
    exact goesOnAlike_next rfl
  · rw [e, step_runs (hpins ▸ hr) (hfetch ▸ hd)]
    exact exec_goesOnAlike hadv (inv_advance hi) i
  · rw [e]
    exact nofun

/-- R39: with `DONE = 0` nothing of the digest register is shown. -/
theorem digestOut_notDone (h : s.done = false) : s.digestOut = 0 := by simp [State.digestOut, h]

/-- While `DONE = 0` an observation shows the control state alone. -/
theorem observe_of_sameControl (h : s.sameControl s') (hd : s.done = false) : s.observe = s'.observe := by
  obtain ⟨v, m, rfl⟩ := sameControl_iff.mp h
  have hd' : s'.done = false := hd
  rw [State.observe, State.observe, digestOut_notDone hd, digestOut_notDone hd']
  rfl

/-- Settles O47, by induction on the number of steps: one control state is kept by a step, and so are the invariants
of the second state (O35), which keep it from stopping. -/
theorem intermediateDigestsStayHidden : Obligations.IntermediateDigestsStayHidden := by
  intro s s' k t hi hi' h hrun
  induction k generalizing s s' with
  | zero =>
    cases hrun
    exact ⟨s', rfl, h, observe_of_sameControl h⟩
  | succ k ih =>
    obtain ⟨u, hu, hrest⟩ := runSteps_succ hrun
    obtain ⟨u', hu', hsame⟩ := step_goesOnAlike h hi' u hu
    rw [runSteps_next k hu']
    exact ih u u' (everyStepKeepsInvariants s u hi hu) (everyStepKeepsInvariants s' u' hi' hu') hsame hrest

/-! ### STATUS, R32 -/

/-- The fields of STATUS, as R32 lays them out. -/
theorem status_fields (c : BitVec 2) (e d b r : Bool) :
    let w := 0#2 ++ c ++ BitVec.ofBool e ++ BitVec.ofBool d ++ BitVec.ofBool b ++ BitVec.ofBool r
    w.getLsbD 0 = r ∧ w.getLsbD 1 = b ∧ w.getLsbD 2 = d ∧ w.getLsbD 3 = e ∧ w.extractLsb' 4 2 = c ∧ w.extractLsb' 6 2 = 0 := by
  revert c e d b r
  decide

/-- R42 (h): a block without a fault records no cause. -/
theorem inv_ecode_noFault (hi : Inv s) (he : s.err = false) : s.ecode = .noFault := by
  by_contra hc
  exact absurd (hi.cause.mp hc) (by simp [he])

/-- STATUS in the three kinds of state R37 tells apart: running, ready, faulted. -/
theorem status_running (hi : Inv s) (h : s.ph ≠ .idle) : s.status = 0x02#8 := by
  have he := inv_busy_err hi h
  have hr : s.ready = false := by simp [State.ready, h]
  rw [State.status, hr, (busy_iff s).mpr h, inv_ecode_noFault hi he, he, inv_busy_done hi h]
  decide

theorem status_ready (hi : Inv s) (hp : s.ph = .idle) (he : s.err = false) : s.status ∈ [0x01#8, 0x05#8] := by
  have hb : s.busy = false := by simp [State.busy, hp]
  rw [State.status, (ready_iff s).mpr ⟨hp, he⟩, hb, inv_ecode_noFault hi he, he]
  cases s.done <;> decide

theorem status_faulted (hi : Inv s) (hp : s.ph = .idle) (he : s.err = true) :
    s.status ∈ [0x18#8, 0x1C#8, 0x28#8, 0x2C#8] := by
  have hc : s.ecode ≠ .noFault := hi.cause.mpr he
  have hb : s.busy = false := by simp [State.busy, hp]
  have hr : s.ready = false := by simp [State.ready, he]
  rw [State.status, hr, hb, he]
  cases hv : s.ecode with
  | noFault => exact absurd hv hc
  | illCmd => cases s.done <;> decide
  | domain => cases s.done <;> decide

/-- Settles O48: the layout of the word, and one value or two for each kind of state and cause. -/
theorem statusFieldsAndValues : Obligations.StatusFieldsAndValues := by
  intro s
  obtain ⟨f0, f1, f2, f3, f4, f6⟩ := status_fields s.ecode.code s.err s.done s.busy s.ready
  refine ⟨f0, f1, f2, f3, f4, f6, fun hi => ?values⟩
  by_cases hp : s.ph = .idle
  · cases he : s.err with
    | false => exact (by simp : [0x01#8, 0x05#8] ⊆ _) (status_ready hi hp he)
    | true => exact (by simp : [0x18#8, 0x1C#8, 0x28#8, 0x2C#8] ⊆ _) (status_faulted hi hp he)
  · rw [status_running hi hp]
    decide

/-! ### READY and BUSY, R37 -/

/-- Every word of format H is a command, so its whole effect is under acceptance (R82, R86). -/
theorem exec_decodeCmd_notReady (h : s.ready = false) (w : BitVec 131) : exec (decodeCmd w) s = .next s := by
  simp only [decodeCmd]
  repeat' split
  all_goals exact accept_notReady h _

/-- Every operation of format U is the hold of IDLE or belongs to a phase of a run. -/
theorem exec_decodePhase_idle (h : s.ph = .idle) {w : BitVec 3} {i : Instr} (hd : decodePhase w = .ok i) :
    exec i s = .next s := by
  have out : ∀ p e, p ≠ .idle → whenPhase p s e = .next s := fun p e hp => whenPhase_out (h ▸ hp.symm) e
  unfold decodePhase at hd
  repeat' split at hd
  all_goals cases hd
  · rfl
  all_goals exact out _ _ (by decide)

/-- Settles O49: the four combinations by `PH` and `ERR`, then what is not enabled in each format. -/
theorem readyAndBusyExcludeEachOther : Obligations.ReadyAndBusyExcludeEachOther := by
  intro s
  refine ⟨ready_iff s, busy_iff s, fun ⟨hr, hb⟩ => ?both, ?neither, fun h w i hd => ?command, fun h w i hd => ?phase⟩
  case both => exact (busy_iff s).mp hb ((ready_iff s).mp hr).1
  case neither => cases he : s.err <;> simp [State.ready, State.busy, he]
  case command => cases hd; exact exec_decodeCmd_notReady h w
  case phase => exact exec_decodePhase_idle (by simpa [State.busy] using h) hd

/-! ### `digest_out`, R39 -/

/-- The value of a byte sequence cut in two. -/
theorem leNat_drop (bs : List Byte) (k : Nat) (h : k ≤ bs.length) : leNat (bs.drop k) = leNat bs / 256 ^ k := by
  have hl : (bs.take k).length = k := by simp [h]
  have hlt := leNat_lt (bs.take k)
  rw [hl] at hlt
  conv_rhs => rw [← List.take_append_drop k bs, leNat_append, hl]
  rw [Nat.add_mul_div_left _ _ (by positivity), Nat.div_eq_of_lt hlt, Nat.zero_add]

theorem leNat_take (bs : List Byte) (k : Nat) (h : k ≤ bs.length) : leNat (bs.take k) = leNat bs % 256 ^ k := by
  have hl : (bs.take k).length = k := by simp [h]
  have hlt := leNat_lt (bs.take k)
  rw [hl] at hlt
  conv_rhs => rw [← List.take_append_drop k bs, leNat_append, hl]
  rw [Nat.add_mul_mod_self_left, Nat.mod_eq_of_lt hlt]

/-- With `DONE = 1`, the 64-bit fields of `digest_out` are the chunks of the digest register. -/
theorem digestOut_chunk (hd : s.done = true) (j : Nat) (hj : j < 4) :
    (s.digestOut.extractLsb' (64 * j) 64).toNat = leNat (digestChunk s.d.digest j) := by
  have hl := leNat_lt s.d.digest
  rw [Memory.digest_length] at hl
  rw [State.digestOut, hd, if_pos rfl, BitVec.extractLsb'_toNat, BitVec.toNat_ofNat, Nat.mod_eq_of_lt (hl.trans_le (by decide)),
    Nat.shiftRight_eq_div_pow, digestChunk, leNat_take _ _ (by simp [digestBytes, laneBytes]; omega),
    leNat_drop _ _ (by simp [digestBytes, laneBytes]; omega), show 64 * j = 8 * (laneBytes * j) by simp only [laneBytes]; omega,
    pow_mul]
  rfl

/-- A zero tail is eight zero bytes. -/
theorem digestChunk_tail {m : Memory} (h : ∀ a, 24 ≤ a → a < 32 → m.read a = 0) : digestChunk m.digest 3 = zeroBytes 8 := by
  apply List.ext_getElem
  · simp [digestChunk, digestBytes, laneBytes]
  · intro k _ hk
    rw [zeroBytes_length] at hk
    simp only [digestChunk, laneBytes, List.getElem_take, List.getElem_drop, Memory.digest_getElem, zeroBytes, List.getElem_replicate]
    exact h _ (by omega) (by omega)

/-- Settles O50: the bytes are `digestOut_byte`, and four of the 64-bit fields are the chunks, the last one the tail. -/
theorem digestOutIsGatedAndLittleEndian : Obligations.DigestOutIsGatedAndLittleEndian := by
  intro s
  refine ⟨fun hd => ⟨digestOut_byte hd, fun j => ?chunk, fun hz => ?tail⟩, fun hd => ?gated⟩
  case chunk => rw [digestOut_chunk hd j (by omega), leNat_digestChunk]
  case tail =>
    have h3 := digestOut_chunk hd 3 (by omega)
    rw [digestChunk_tail hz, leNat_zeroBytes] at h3
    exact BitVec.eq_of_toNat_eq h3
  case gated => exact digestOut_notDone hd

/-! ### Who writes what, R20 -/

/-- Settles O32: each thing a step can do names the fields it sets, and is one of the writers of each. -/
theorem eachRegisterHasOnlyItsWriters : Obligations.EachRegisterHasOnlyItsWriters := by
  intro s t hr h
  cases step_inversion h with
  | reset rst => rw [hr] at rst; exact nomatch rst
  | start _ _ acc _ _ _ _ eq => subst eq; simp [acc]
  | engine _ _ acc _ _ _ eq => subst eq; simp [acc]
  | faulting _ _ _ acc eq => subst eq; simp [acc]
  | hold _ _ _ eq => subst eq; simp
  | mae _ _ _ _ eq => subst eq; simp
  | checkEnd _ ph _ eq => subst eq; simp [ph]
  | checkMore _ ph _ eq => subst eq; simp [ph]
  | unpack _ ph _ _ eq => subst eq; simp [ph]
  | keyadd _ ph _ _ eq => subst eq; simp [ph]
  | sboxl _ ph eq => subst eq; simp [ph]
  | mixLast _ ph _ _ _ eq => subst eq; simp [ph]
  | mixNext _ ph _ _ _ eq => subst eq; simp [ph]
  | pack _ ph _ _ eq => subst eq; simp [ph]

end Sys2Proof.Machine
end

section
/-! PROOFS. The family of spec/20_memory.md: every access to the digest register is inside it (R55). -/

namespace Sys2Proof.Machine

variable {s : State}

/-- A result that is no fault of the model. The block's own faults are next states and are not meant. -/
def faultFree (e : Result) : Prop := ∀ f, e ≠ .fault f

theorem faultFree_next (t : State) : faultFree (.next t) := nofun

theorem faultFree_refused (r : Refusal) : faultFree (.refused r) := nofun

/-! ### The shared operations -/

theorem faultFree_accept {e : Result} (he : faultFree e) : faultFree (accept s e) := by
  cases hr : s.ready with
  | true => rwa [accept_ready hr]
  | false => rw [accept_notReady hr]; exact faultFree_next s

theorem faultFree_whenPhase {p : Phase} {e : Result} (he : faultFree e) : faultFree (whenPhase p s e) := by
  by_cases hp : s.ph = p
  · rwa [whenPhase_in hp]
  · rw [whenPhase_out hp]; exact faultFree_next s

/-- An addition outside the domain is a refusal, not a fault. -/
theorem faultFree_orAddRefused {α : Type} (v : Option α) (k : α → State) : faultFree (orAddRefused v k) := by
  cases v with
  | none => exact faultFree_refused _
  | some x => exact faultFree_next (k x)

/-- An access inside the digest register. -/
theorem faultFree_orDigestFault {w : Option Memory} (k : Memory → State) (inside : ∃ m, w = some m) :
    faultFree (orDigestFault w k) := by
  obtain ⟨m, rfl⟩ := inside
  exact faultFree_next (k m)

theorem faultFree_engineCommand (d : Bool) (v : Option Word) : faultFree (engineCommand d v s) := by
  refine faultFree_accept ?_
  cases d with
  | true => exact faultFree_orAddRefused v _
  | false => exact faultFree_next _

theorem faultFree_illegalCommand : faultFree (illegalCommand s) := faultFree_accept (faultFree_next _)

theorem faultFree_driveMae (op : MaeOp) (a b : Word) : faultFree (driveMae op a b s) := faultFree_orAddRefused _ _

/-! ### The three operations that access the digest register, and the others -/

/-- START writes bytes 0 to 31. -/
theorem faultFree_execStart (n : Word) : faultFree (execStart n s) := by
  obtain ⟨m, written, -⟩ := startWrite_spec s.d
  exact faultFree_accept (faultFree_orDigestFault _ ⟨m, written⟩)

/-- UNPACK reads its three chunks inside the digest register. -/
theorem execUnpack_eq : execUnpack s = whenPhase .unpack s (.next { s with
    lanes := ⟨reduce (le64 (digestChunk s.d.digest 0)), reduce (le64 (digestChunk s.d.digest 1)),
      reduce (le64 (digestChunk s.d.digest 2))⟩, rnd := 0, ph := .keyadd }) := by
  rw [execUnpack, chunkLane_eq _ 0 (by omega), chunkLane_eq _ 1 (by omega), chunkLane_eq _ 2 (by omega)]

theorem faultFree_execUnpack : faultFree (execUnpack s) := by
  rw [execUnpack_eq]
  exact faultFree_whenPhase (faultFree_next _)

/-- PACK writes three chunks. -/
theorem faultFree_execPack : faultFree (execPack s) := by
  obtain ⟨m, written, -⟩ := packLanes_spec s.d s.lanes
  exact faultFree_whenPhase (faultFree_orDigestFault _ ⟨m, written⟩)

theorem exec_faultFree (i : Instr) : faultFree (exec i s) := by
  cases i with
  | add a b => exact faultFree_engineCommand _ _
  | mul a b => exact faultFree_engineCommand _ _
  | sbox a b => exact faultFree_engineCommand _ _
  | reserved011 => exact faultFree_illegalCommand
  | reserved101 => exact faultFree_illegalCommand
  | reserved110 => exact faultFree_illegalCommand
  | reserved111 => exact faultFree_illegalCommand
  | start n b => exact faultFree_execStart n
  | maeAdd a b => exact faultFree_driveMae .add a b
  | maeMul a b => exact faultFree_driveMae .mul a b
  | maeSbox a b => exact faultFree_driveMae .sbox a b
  | idle => exact faultFree_next s
  | check => exact faultFree_whenPhase (faultFree_next _)
  | unpack => exact faultFree_execUnpack
  | keyadd => exact faultFree_whenPhase (faultFree_orAddRefused _ _)
  | sboxl => exact faultFree_whenPhase (faultFree_orAddRefused _ _)
  | mix => exact faultFree_whenPhase (faultFree_orAddRefused _ _)
  | pack => exact faultFree_execPack

/-- A step is a reset, an operation, or the refusal of a word that names none. -/
theorem step_faultFree (s : State) : faultFree (step s) := by
  rcases step_cases (s := s) with ⟨-, eq⟩ | ⟨-, i, -, eq⟩ | ⟨-, x, -, eq⟩
  · exact eq ▸ faultFree_next _
  · exact eq ▸ exec_faultFree i
  · exact eq ▸ faultFree_refused _

/-- Settles O34: START, UNPACK and PACK alone access the digest register, each inside it (`startWrite_spec`,
`execUnpack_eq`, `packLanes_spec`), and a step runs no more than one operation. -/
theorem noStepLeavesTheDigestRegister : Obligations.NoStepLeavesTheDigestRegister :=
  ⟨step_faultFree, fun i _ => exec_faultFree i⟩

end Sys2Proof.Machine
end

section
/-! PROOFS. The family of spec/30_encoding.md, the words of the three formats: which words name an operation, and
that encoder and decoder are inverse (R71 to R82). -/

namespace Sys2Proof

/-! ### From an operation to its word and back -/

/-- Settles O57: the selector and the operands come back from the word (`commandWord_op`, `maeWord_op` and their
like), and the selectors of one format are distinct. -/
theorem decodeRecoversEveryEncoding : Obligations.DecodeRecoversEveryEncoding := by
  intro i
  cases i with
  | add | mul | sbox | reserved011 | start | reserved101 | reserved110 | reserved111 => simp [encode, decode, decodeCmd]
  | maeAdd | maeMul | maeSbox => simp [encode, decode, decodeMae]
  | idle | check | unpack | keyadd | sboxl | mix | pack => rfl

/-- Settles O60: each word is the encoding of the operation, written out. -/
theorem writtenOutWordsDecode : Obligations.WrittenOutWordsDecode :=
  ⟨decodeRecoversEveryEncoding (.mul 0x1234567890ABCDEF#64 0x1234567890ABCDEF#64),
    decodeRecoversEveryEncoding (.start 1#64 0#64),
    decodeRecoversEveryEncoding (.reserved111 0xAAAAAAAAAAAAAAAA#64 0x5555555555555555#64),
    decodeRecoversEveryEncoding (.maeSbox 5#64 7#64), decodeRecoversEveryEncoding .mix⟩

/-! ### From a word to its operation and back -/

/-- The values of a selector of three bits. -/
theorem threeBits_cases (x : BitVec 3) : x = 0b000#3 ∨ x = 0b001#3 ∨ x = 0b010#3 ∨ x = 0b011#3 ∨ x = 0b100#3 ∨
    x = 0b101#3 ∨ x = 0b110#3 ∨ x = 0b111#3 := by
  revert x
  decide

/-- The values of a selector of two bits. -/
theorem twoBits_cases (x : BitVec 2) : x = 0b00#2 ∨ x = 0b01#2 ∨ x = 0b10#2 ∨ x = 0b11#2 := by
  revert x
  decide

/-- R75, R82: each value of `cmd_op` is a command. -/
theorem exists_encode_commandWord (op : BitVec 3) (a b : Word) : ∃ i, encode i = .cmd (commandWord op a b) := by
  rcases threeBits_cases op with rfl | rfl | rfl | rfl | rfl | rfl | rfl | rfl
  · exact ⟨.add a b, rfl⟩
  · exact ⟨.mul a b, rfl⟩
  · exact ⟨.sbox a b, rfl⟩
  · exact ⟨.reserved011 a b, rfl⟩
  · exact ⟨.start a b, rfl⟩
  · exact ⟨.reserved101 a b, rfl⟩
  · exact ⟨.reserved110 a b, rfl⟩
  · exact ⟨.reserved111 a b, rfl⟩

/-- R76, R79: each value of `mae_op` but 11 is an operation. -/
theorem exists_encode_maeWord (op : BitVec 2) (a b : Word) : (∃ i, encode i = .mae (maeWord op a b)) ∨ op = 0b11#2 := by
  rcases twoBits_cases op with rfl | rfl | rfl | rfl
  · exact .inl ⟨.maeAdd a b, rfl⟩
  · exact .inl ⟨.maeMul a b, rfl⟩
  · exact .inl ⟨.maeSbox a b, rfl⟩
  · exact .inr rfl

/-- R77, R80: each value of `PH` but 111 is a micro-operation. -/
theorem exists_encode_phase (w : BitVec 3) : (∃ i, encode i = .phase w) ∨ w = 0b111#3 := by
  rcases threeBits_cases w with rfl | rfl | rfl | rfl | rfl | rfl | rfl | rfl
  · exact .inl ⟨.idle, rfl⟩
  · exact .inl ⟨.check, rfl⟩
  · exact .inl ⟨.unpack, rfl⟩
  · exact .inl ⟨.keyadd, rfl⟩
  · exact .inl ⟨.sboxl, rfl⟩
  · exact .inl ⟨.mix, rfl⟩
  · exact .inl ⟨.pack, rfl⟩
  · exact .inr rfl

/-- A word is the encoding of an operation, or has one of the two selectors that name none. -/
theorem wire_cases (w : Wire) :
    (∃ i, encode i = w) ∨ (∃ a b, w = .mae (maeWord 0b11#2 a b)) ∨ w = .phase 0b111#3 := by
  cases w with
  | cmd w =>
    rw [← commandWord_fields w]
    exact .inl (exists_encode_commandWord _ _ _)
  | mae w =>
    rw [← maeWord_fields w]
    rcases exists_encode_maeWord (w.extractLsb' 128 2) (w.extractLsb' 64 64) (w.extractLsb' 0 64) with named | op
    · exact .inl named
    · exact .inr (.inl ⟨_, _, by rw [op]⟩)
  | phase w =>
    rcases exists_encode_phase w with named | rfl
    · exact .inl named
    · exact .inr (.inr rfl)

/-- R79. -/
theorem decode_reservedMaeOp (a b : Word) : decode (.mae (maeWord 0b11#2 a b)) = .error .reservedMaeOp := by
  simp [decode, decodeMae]

/-- R80. -/
theorem decode_unreachedPhase : decode (.phase 0b111#3) = .error .unreachedPhase := rfl

/-- Settles O58: a word that decodes is the encoding of some operation (`wire_cases`), which is the one it decodes
to (O57). -/
theorem decodedWordIsTheEncoding : Obligations.DecodedWordIsTheEncoding := by
  intro w i h
  rcases wire_cases w with ⟨j, rfl⟩ | ⟨a, b, rfl⟩ | rfl
  · rw [decodeRecoversEveryEncoding j] at h
    cases h
    rfl
  · rw [decode_reservedMaeOp] at h
    exact nomatch h
  · rw [decode_unreachedPhase] at h
    exact nomatch h

/-- Settles O59: the encoding of an operation decodes (O57), and the other words are of the two selectors
(`wire_cases`). -/
theorem onlyTwoSelectorsAreUndefined : Obligations.OnlyTwoSelectorsAreUndefined := by
  intro w e
  constructor
  · intro h
    rcases wire_cases w with ⟨i, rfl⟩ | ⟨a, b, rfl⟩ | rfl
    · rw [decodeRecoversEveryEncoding i] at h
      exact nomatch h
    · rw [decode_reservedMaeOp] at h
      cases h
      exact .inl ⟨rfl, a, b, rfl⟩
    · rw [decode_unreachedPhase] at h
      cases h
      exact .inr ⟨rfl, rfl⟩
  · rintro (⟨rfl, a, b, rfl⟩ | ⟨rfl, rfl⟩)
    · exact decode_reservedMaeOp a b
    · exact decode_unreachedPhase

end Sys2Proof
end

section
/-! PROOFS. The family of spec/30_encoding.md, what a word does: the reserved commands (R78), the ignored fields
(R81), micro-operations and commands that are not enabled (R73, R86), and the word placed for the next step. -/

namespace Sys2Proof.Machine

variable {s t : State}

/-! ### The reserved commands and the ignored fields -/

/-- Settles O4: all four are `illegalCommand`, whose whole effect is under acceptance. -/
theorem reservedCommandsTakeIllegalFault : Obligations.ReservedCommandsTakeIllegalFault := by
  intro s a b x hx
  have ready : s.ready = true → illegalCommand s = .next { s with err := true, ecode := .illCmd } := (accept_ready · _)
  have notReady : s.ready = false → illegalCommand s = .next s := (accept_notReady · _)
  simp only [List.mem_cons, List.not_mem_nil, or_false] at hx
  rcases hx with rfl | rfl | rfl | rfl
  · exact ⟨decodeRecoversEveryEncoding (.reserved011 a b), ready, notReady⟩
  · exact ⟨decodeRecoversEveryEncoding (.reserved101 a b), ready, notReady⟩
  · exact ⟨decodeRecoversEveryEncoding (.reserved110 a b), ready, notReady⟩
  · exact ⟨decodeRecoversEveryEncoding (.reserved111 a b), ready, notReady⟩

/-- Settles O5: the field does not reach the meaning (`execSbox` uses it as an operand its MAE operation drops). -/
theorem ignoredFieldsHaveNoEffect : Obligations.IgnoredFieldsHaveNoEffect := by
  intro s a b a' b'
  exact ⟨rfl, rfl, rfl, rfl, rfl, rfl⟩

/-! ### Operations that are not enabled -/

/-- Settles O22: the operation of a phase other than IDLE is under `whenPhase`, and the hold of IDLE changes nothing
anywhere. -/
theorem unselectedMicroOperationDoesNothing : Obligations.UnselectedMicroOperationDoesNothing := by
  intro s p i hd hp
  cases p with
  | idle => cases hd; rfl
  | check | unpack | keyadd | sboxl | mix | pack => cases hd; exact whenPhase_out hp _

/-- A step depends on the reset wire, the word fetched, and the state it acts on. -/
theorem step_congr (rst : s.pins.rst = t.pins.rst) (fetch : s.fetch = t.fetch) (adv : s.advance = t.advance) :
    step s = step t := by
  have reset : takeReset s = takeReset t := congrArg (fun u : State => { State.reset with tape := u.tape }) adv
  simp only [step, rst, fetch, adv, reset]

/-- What is fetched with `READY = 0` depends on the phase and the MAE port. -/
theorem fetch_congr_of_notReady (hs : s.ready = false) (ht : t.ready = false) (ph : s.ph = t.ph)
    (mae : s.pins.mae = t.pins.mae) : s.fetch = t.fetch := by
  by_cases idle : t.ph = .idle
  · cases hm : t.pins.mae with
    | none => rw [fetch_hold (ph.trans idle) (.inl hs) (mae.trans hm), fetch_hold idle (.inl ht) hm]
    | some m => rw [fetch_mae (ph.trans idle) (.inl hs) (mae.trans hm), fetch_mae idle (.inl ht) hm]
  · rw [fetch_busy (ph ▸ idle), fetch_busy idle, ph]

/-- Settles O28: the command wires are not among what the step depends on. -/
theorem commandWhileNotReadyHasNoEffect : Obligations.CommandWhileNotReadyHasNoEffect :=
  fun _ _ _ _ _ _ _ notReady => step_congr rfl (fetch_congr_of_notReady notReady notReady rfl rfl) rfl

/-! ### The word placed for the next step -/

/-- The one code that is no phase's. -/
theorem ofCode_eq_none : ∀ {c : BitVec 3}, Phase.ofCode c = none → c = 0b111#3 := by decide

/-- A word that decodes is fetched where it is placed, and no reset comes with it. -/
theorem fetch_place {w : Wire} {i : Instr} (h : decode w = .ok i) :
    (s.place w).pins.rst = false ∧ (s.place w).fetch = w := by
  cases w with
  | cmd w =>
    refine ⟨rfl, (fetch_command ((ready_iff _).mpr ⟨rfl, rfl⟩) rfl).trans ?_⟩
    exact congrArg Wire.cmd (commandWord_fields w)
  | mae w =>
    refine ⟨rfl, (fetch_mae (m := MaeDrive.ofWord w) rfl (.inr rfl) rfl).trans ?_⟩
    exact congrArg Wire.mae (maeWord_fields w)
  | phase w =>
    cases hp : Phase.ofCode w with
    | none =>
      rw [ofCode_eq_none hp, decode_unreachedPhase] at h
      exact nomatch h
    | some p =>
      have placed : s.place (.phase w) = { s with ph := p, tape := Pins.quiet :: s.tape } := by rw [State.place, hp]
      rw [placed, ← code_ofCode hp]
      refine ⟨rfl, ?_⟩
      by_cases idle : p = .idle
      · subst idle
        exact fetch_hold rfl (.inr rfl) rfl
      · exact fetch_busy idle

/-- Settles O25: the word the table number means is the one placed, and it is the one fetched (`fetch_place`). -/
theorem placedWordRunsNext : Obligations.PlacedWordRunsNext := by
  intro s nbits w i h
  unfold decodeTableWord at h
  unfold State.withFetchWord
  cases table : tableWire nbits w with
  | none => rw [table] at h; exact nomatch h
  | some x =>
    rw [table] at h
    cases hd : decode x with
    | error e => simp [hd, Except.toOption] at h
    | ok j =>
      obtain rfl : j = i := by simpa [hd, Except.toOption] using h
      obtain ⟨rst, fetch⟩ := fetch_place (s := s) hd
      exact step_runs rst (by rw [fetch, hd])

end Sys2Proof.Machine
end

section
/-! PROOFS. A run of the sequencer, from the round up to the boundary where it is over (41_sequencer_ops.md R111 to R128,
70_reset_and_hazards.md R186): what its steps compute, and what is seen of it. -/

namespace Sys2Proof.Machine

variable {s t : State} {k : Nat}

/-! ### What the steps of a run compute: a round, three of them, a permutation -/

/-- KEYADD, SBOXL and MIX are one `round` with the key of `RND` (R122, R125). -/
theorem runSteps_round (ph : s.ph = .keyadd) (red : s.lanes.reduced) (nr : s.noReset 3) :
    ∃ v, roundFn s.lanes (roundKey s.rnd) = some v ∧ v.reduced ∧
      runSteps 3 s = .next (afterMix { s with lanes := v, ph := .mix, tape := s.tape.drop 3 }) := by
  obtain ⟨h0, h1, h2⟩ := (reduced_iff _).mp red
  obtain ⟨a, ha, -⟩ := addP_spec s.lanes.l0 (roundKey s.rnd) h0
  have red' : Lanes.reduced { s.lanes with l0 := sboxP a } := (reduced_iff _).mpr ⟨sboxP_lt a, h1, h2⟩
  obtain ⟨v, hv, -⟩ := mixLanes_spec { s.lanes with l0 := sboxP a } (sboxP_lt a) h1 h2
  refine ⟨v, by simp [roundFn, mae, ha, hv], mixLanes_reduced red' hv, ?_⟩
  have keyadd := step_keyadd (noReset_now nr) ph
  rw [ha, orAddRefused_some] at keyadd
  rw [runSteps_next 2 keyadd]
  have nr1 := noReset_next nr (step_tape keyadd)
  have sboxl := step_sboxl (noReset_now nr1) rfl
  rw [runSteps_next 1 sboxl]
  have mix := step_mix (noReset_now (noReset_next nr1 (step_tape sboxl))) rfl
  rw [show mixLanes _ = some v from hv, orAddRefused_some] at mix
  rw [runSteps_next 0 mix]
  simp [runSteps, State.advance, ← List.drop_one]

/-- The three rounds of a permutation, each with its key (R123). -/
theorem runSteps_rounds (ph : s.ph = .keyadd) (rnd : s.rnd = 0) (red : s.lanes.reduced) (nr : s.noReset 9) :
    ∃ v1 v2 v3, roundFn s.lanes (roundKey 0) = some v1 ∧ roundFn v1 (roundKey 1) = some v2 ∧
      roundFn v2 (roundKey 2) = some v3 ∧ v3.reduced ∧
      runSteps 9 s = .next { s with lanes := v3, rnd := 2, ph := .pack, tape := s.tape.drop 9 } := by
  obtain ⟨v1, f1, red1, e1⟩ := runSteps_round ph red (noReset_fewer nr (by omega))
  rw [rnd] at f1
  rw [afterMix_next _ (by simp [rnd, lastRound])] at e1
  obtain ⟨v2, f2, red2, e2⟩ := runSteps_round (s := { s with lanes := v1, rnd := s.rnd + 1, ph := .keyadd, tape := s.tape.drop 3 })
    rfl red1 (noReset_drop (j := 3) (noReset_fewer nr (by omega)) rfl)
  rw [afterMix_next _ (by simp [rnd, lastRound])] at e2
  obtain ⟨v3, f3, red3, e3⟩ := runSteps_round
    (s := { s with lanes := v2, rnd := s.rnd + 1 + 1, ph := .keyadd, tape := (s.tape.drop 3).drop 3 })
    rfl red2 (noReset_drop (j := 6) nr (by simp))
  rw [afterMix_last _ (by simp [rnd, lastRound])] at e3
  simp only [rnd] at f2 f3
  refine ⟨v1, v2, v3, f1, f2, f3, red3, ?_⟩
  rw [runSteps_add 3 6 e1, runSteps_add 3 3 e2, e3]
  simp [rnd]

/-- From UNPACK eleven steps are one `permute` of the digest, where its tail is zero (R125). -/
theorem runSteps_permutation (ph : s.ph = .unpack) (tail : ∀ a, 24 ≤ a → a < 32 → s.d.read a = 0) (nr : s.noReset 11) :
    ∃ v m, permuteFn s.d.digest = some m.digest ∧ v.reduced ∧ (∀ a, 24 ≤ a → m.read a = s.d.read a) ∧
      runSteps 11 s = .next
        { s with lanes := v, d := m, i := incrementI s.i, rnd := 2, ph := .check, tape := s.tape.drop 11 } := by
  obtain ⟨v0, f0, unpack⟩ := step_unpack (noReset_now nr) ph
  obtain ⟨v1, v2, v3, f1, f2, f3, red, rounds⟩ := runSteps_rounds (s := { s.advance with lanes := v0, rnd := 0, ph := .keyadd })
    rfl rfl (unpackFn_reduced f0) (noReset_fewer (noReset_next nr (step_tape unpack)) (by omega))
  obtain ⟨m, written, pack⟩ := step_pack
    (s := { s.advance with lanes := v3, rnd := 2, ph := .pack, tape := s.advance.tape.drop 9 })
    (noReset_now (k := 0) (noReset_drop (j := 10) nr (by simp))) rfl
  obtain ⟨m', e, -, -, -, rest, -⟩ := packLanes_spec s.d v3
  obtain rfl : m' = m := Option.some.inj (e.symm.trans written)
  refine ⟨v3, m', ?_, red, rest, ?_⟩
  · rw [digest_packLanes written tail]
    simp [permuteFn, f0, f1, f2, f3]
  · rw [runSteps_next 10 unpack, runSteps_add 9 1 rounds, runSteps_next 0 pack]
    simp [runSteps, State.advance]

/-! ### A run: its acceptance, its steps, its end -/

/-- R111: the step that accepts START, as an equation. -/
theorem step_start (acc : s.acceptsStart) : ∃ m : Memory, (∀ a, a < 32 → m.read a = 0) ∧
    step s = .next { s.advance with n := s.pins.cmdA, i := 0, d := m, done := false, ph := .check } := by
  obtain ⟨rst, ready, valid, op⟩ := acc
  obtain ⟨m, written, zero, -⟩ := startWrite_spec s.d
  have decoded : decode (.cmd s.pins.word) = .ok (.start s.pins.cmdA s.pins.cmdB) := by
    rw [Pins.word, op]
    exact decodeRecoversEveryEncoding (.start s.pins.cmdA s.pins.cmdB)
  refine ⟨m, zero, ?_⟩
  rw [step_runs rst (by rw [fetch_command ready valid, decoded])]
  simp only [exec, execStart, accept_ready (s := s.advance) ready, advance_d, written, orDigestFault_some]

/-- A digest register of zeros is `iterate(0)` (R124). -/
theorem digest_of_zero {m : Memory} (zero : ∀ a, a < 32 → m.read a = 0) : m.digest = zeroBytes digestBytes := by
  apply List.ext_getElem
  · simp
  · intro j hj _
    rw [Memory.digest_getElem, zero j (by simpa [digestBytes] using hj)]
    simp [zeroBytes]

/-- From CHECK with a permutation still to do, twelve steps do it and come back to CHECK. -/
theorem runSteps_check_permutation (ph : s.ph = .check) (more : s.i ≠ s.n) (tail : ∀ a, 24 ≤ a → a < 32 → s.d.read a = 0)
    (nr : s.noReset 12) :
    ∃ v m, permuteFn s.d.digest = some (Memory.digest m) ∧ (∀ a, 24 ≤ a → m.read a = s.d.read a) ∧ runSteps 12 s = .next
      { s with lanes := v, d := m, i := incrementI s.i, rnd := 2, ph := .check, tape := s.tape.drop 12 } := by
  have check := step_check (noReset_now nr) ph
  rw [if_neg more] at check
  obtain ⟨v, m, permuted, -, rest, permutation⟩ :=
    runSteps_permutation (s := { s.advance with ph := .unpack }) rfl tail (noReset_next nr rfl)
  refine ⟨v, m, permuted, rest, ?_⟩
  rw [runSteps_next 11 check, permutation]
  simp [State.advance, ← List.drop_one]

/-- From CHECK with `k` permutations to go a run takes `12*k + 1` steps, and leaves `iterate(N)` (R125, R126). -/
theorem runSteps_from_check (k : Nat) (ph : s.ph = .check) (togo : s.i.toNat + k = s.n.toNat)
    (tail : ∀ a, 24 ≤ a → a < 32 → s.d.read a = 0) (sofar : iterateFn s.i.toNat = some s.d.digest)
    (nr : s.noReset (12 * k + 1)) :
    ∃ v m r, iterateFn s.n.toNat = some (Memory.digest m) ∧ runSteps (12 * k + 1) s = .next
      { s with lanes := v, d := m, i := s.n, rnd := r, ph := .idle, done := true, tape := s.tape.drop (12 * k + 1) } := by
  induction k generalizing s with
  | zero =>
    have ended : s.i = s.n := BitVec.eq_of_toNat_eq togo
    have check := step_check (noReset_now nr) ph
    rw [if_pos ended] at check
    refine ⟨s.lanes, s.d, s.rnd, ended ▸ sofar, ?_⟩
    rw [runSteps_next 0 check]
    simp [runSteps, State.advance, ended]
  | succ k ih =>
    rw [show 12 * (k + 1) + 1 = 12 + (12 * k + 1) by omega] at nr ⊢
    have more : s.i ≠ s.n := fun e => by rw [e] at togo; omega
    have counted : (incrementI s.i).toNat = s.i.toNat + 1 := incrementI_toNat (by have := s.n.isLt; omega)
    obtain ⟨v, m, permuted, rest, run⟩ := runSteps_check_permutation ph more tail (noReset_fewer nr (by omega))
    have sofar' : iterateFn (incrementI s.i).toNat = some m.digest := by
      rw [counted, iterateFn, sofar, Option.bind_some, permuted]
    obtain ⟨v', m', r', digest, run'⟩ := ih
      (s := { s with lanes := v, d := m, i := incrementI s.i, rnd := 2, ph := .check, tape := s.tape.drop 12 })
      rfl (by simp only [counted]; omega) (fun a h h' => (rest a h).trans (tail a h h')) sofar' (noReset_drop nr rfl)
    refine ⟨v', m', r', digest, ?_⟩
    rw [runSteps_add _ _ run, run', List.drop_drop]

/-- Before its last step a run is busy, and nothing the host sees has changed (R128). -/
theorem run_busy_before_end (busy : s.ph ≠ .idle) (count : countOk s) (nr : s.noReset k) (before : k < stepsLeft s)
    (run : runSteps k s = .next t) :
    t.ph ≠ .idle ∧ t.done = s.done ∧ t.r = s.r ∧ t.err = s.err ∧ t.ecode = s.ecode := by
  induction k generalizing s with
  | zero => cases run; exact ⟨busy, rfl, rfl, rfl, rfl⟩
  | succ k ih =>
    obtain ⟨u, first, rest⟩ := runSteps_succ run
    obtain ⟨left, count', ends, tape, -, r, err, ecode, done⟩ := run_step busy (noReset_now nr) count first
    have busy' : u.ph ≠ .idle := fun idle => by have := ends.mp idle; omega
    obtain ⟨h, hdone, hr, herr, hecode⟩ := ih busy' count' (noReset_next nr tape) (by omega) rest
    exact ⟨h, hdone.trans (done busy'), hr.trans r, herr.trans err, hecode.trans ecode⟩

/-- The run of `START n` accepted in the coming step is over `12*n + 2` steps on, with `iterate(n)` in the digest
register (R125, R186). -/
theorem run_of_start (acc : s.acceptsStart) (nr : s.noReset (12 * s.pins.cmdA.toNat + 2)) :
    ∃ v m r, iterateFn s.pins.cmdA.toNat = some (Memory.digest m) ∧
      runEndsAt s (12 * s.pins.cmdA.toNat + 2) { s with
        lanes := v, d := m, n := s.pins.cmdA, i := s.pins.cmdA, rnd := r, ph := .idle, done := true,
        tape := s.tape.drop (12 * s.pins.cmdA.toNat + 2) } := by
  obtain ⟨m0, zero, start⟩ := step_start acc
  have nr' := noReset_next nr (step_tape start)
  obtain ⟨v, m, r, digest, run⟩ := runSteps_from_check s.pins.cmdA.toNat rfl (by simp) (fun a _ h => zero a h)
    (by simp [iterateFn, digest_of_zero zero]) nr'
  refine ⟨v, m, r, digest, acc, nr, by omega, ?_, ⟨rfl, rfl⟩, fun j u pos lt hu => ?first⟩
  · rw [runSteps_next _ start, run, advance_tape, List.drop_tail]
    rfl
  case first =>
    obtain ⟨j, rfl⟩ : ∃ i, j = i + 1 := ⟨j - 1, by omega⟩
    rw [runSteps_next j start] at hu
    obtain ⟨busy, -⟩ := run_busy_before_end (by simp) (by simp [countOk]) (noReset_fewer nr' (by omega))
      (by simp [stepsLeft]; omega) hu
    exact fun ends => busy ends.1

end Sys2Proof.Machine
end

section
/-! PROOFS. The family of spec/30_encoding.md, host scripts: the pseudo-instruction HASH (R85), which starts a run and
waits for its end. -/

namespace Sys2Proof.Machine

variable {s t : State} {n : Word} {fuel : Nat}

/-- The block whose only coming input is START `n` accepts it if it is ready, and no reset is ahead. -/
theorem presentStart_acceptsStart (ready : s.ready = true) : (s.presentStart n).acceptsStart := ⟨rfl, ready, rfl, rfl⟩

theorem presentStart_noReset (k : Nat) : (s.presentStart n).noReset k := by
  intro p hp
  obtain rfl : p = Pins.ofCommand 0b100#3 n 0 := List.mem_singleton.mp (List.mem_of_mem_take hp)
  rfl

/-- What the host of a script waits for, read off `status`, in terms of the block (R32). -/
theorem statusReady_observe (s : State) : statusReady s.observe.status = s.ready := by
  obtain ⟨ready, -⟩ := status_fields s.ecode.code s.err s.done s.busy s.ready
  exact ready

theorem statusReadyOrErr_observe (s : State) : statusReadyOrErr s.observe.status = (s.ready || s.err) := by
  obtain ⟨ready, -, -, err, -⟩ := status_fields s.ecode.code s.err s.done s.busy s.ready
  exact congrArg₂ (· || ·) ready err

theorem not_ready_of_busy (h : s.ph ≠ .idle) : s.ready = false := by simp [State.ready, h]

/-- Once START is accepted, a host that observes until READY or ERR reaches the end of the run. -/
theorem holdUntil_runEnd (ready : s.ready = true) (le : 12 * n.toNat + 1 ≤ fuel) :
    ∃ first last, step (s.presentStart n) = .next first ∧
      holdUntil Pins.quiet (fun u => statusReadyOrErr u.observe.status) fuel first = .reached last ∧
      runEndsAt (s.presentStart n) (12 * n.toNat + 2) last ∧ iterateFn n.toNat = some last.d.digest := by
  have acc := presentStart_acceptsStart (n := n) ready
  have noErr : s.err = false := ((ready_iff s).mp ready).2
  obtain ⟨v, m, r, digest, ends⟩ := run_of_start acc (presentStart_noReset _)
  obtain ⟨m0, -, start⟩ := step_start acc
  have ⟨_, _, _, run, _⟩ := ends
  rw [runSteps_next _ start] at run
  refine ⟨_, _, start, holdUntil_quiet le rfl run ?last fun j u lt hu => ?before, ends, digest⟩
  case last =>
    rw [statusReadyOrErr_observe, Bool.or_eq_true]
    exact .inl ((ready_iff _).mpr ⟨rfl, noErr⟩)
  case before =>
    obtain ⟨busy, -, -, err, -⟩ := run_busy_before_end (by simp) (by simp [countOk])
      (noReset_next (presentStart_noReset _) (step_tape start)) (by simp [stepsLeft, State.pins, Pins.ofCommand]; omega) hu
    rw [statusReadyOrErr_observe, not_ready_of_busy busy, err]
    exact noErr

/-- A command line on a ready block is presented at once. -/
theorem hostCommand_ready {h : HostRun} (ready : h.block.ready = true) (op : BitVec 3) (a b : Word) (k : HostRun → ScriptEnd)
    (e : step { h.block with tape := [Pins.ofCommand op a b] } = .next t) :
    h.command fuel op (.num a) (.num b) k = k { h with block := t } := by
  have here : holdUntil Pins.quiet (fun u => statusReady u.observe.status) fuel h.block = .reached h.block :=
    holdUntil_here ((statusReady_observe h.block).trans ready)
  simp only [HostRun.command, HostRun.waitFor, here, HostRun.value, HostRun.drive, e]

/-- Settles O55: the ready block accepts START at once, and WAIT lasts as long as the run (`holdUntil_runEnd`). -/
theorem hashPseudoInstructionEndsWithDigest : Obligations.HashPseudoInstructionEndsWithDigest := by
  intro h n fuel ready le
  obtain ⟨first, last, start, wait, ends, digest⟩ := holdUntil_runEnd ready le
  have ⟨_, _, _, _, shows, _⟩ := ends
  refine ⟨{ h with block := last }, ?_, ends, shows, digest, rfl⟩
  calc HostRun.script fuel (Line.hash (.num n)) h
    _ = HostRun.script fuel [.wait] { h with block := first } := hostCommand_ready ready _ _ _ _ start
    _ = .finished { h with block := last } := by simp only [HostRun.script, HostRun.line, HostRun.waitFor, wait]

end Sys2Proof.Machine
end

section
/-! PROOFS. The family of spec/40_engine_ops.md: the MAE's three functions on all of their domain (R90 to R94, R99
to R103), the engine commands (R95 to R97), and that engine and sequencer do not touch each other (R104). -/

namespace Sys2Proof.Machine

variable {s t : State} {a b : Word}

/-! ### The MAE's three functions -/

/-- A word whose value is a remainder modulo `P` is that remainder, narrowed. -/
theorem eq_ofNat_mod {v : Word} {x : Nat} (h : v.toNat = x % modulus) : v = BitVec.ofNat 64 (x % modulus) :=
  BitVec.eq_of_toNat_eq (h.trans (toNat_ofNat_mod x).symm)

theorem mod_modulus_lt (x : Nat) : x % modulus < modulus := Nat.mod_lt x (by decide)

/-- R99: on field elements `add_p` is addition modulo `P`, as a word. -/
theorem addP_eq_of_elems (ha : a.toNat < modulus) (hb : b.toNat < modulus) :
    addP a b = some (BitVec.ofNat 64 ((a.toNat + b.toNat) % modulus)) := by
  obtain ⟨v, hv, value⟩ := addP_elems a b ha hb
  rw [hv, eq_ofNat_mod value]

/-- R94: the S-box is the fifth power modulo `P`, as a word. -/
theorem sboxP_eq (x : Word) : sboxP x = BitVec.ofNat 64 (x.toNat ^ 5 % modulus) := eq_ofNat_mod (sboxP_toNat x)

theorem mulP_comm (a b : Word) : mulP a b = mulP b a := by rw [mulP, mulP, Nat.mul_comm]

/-- R93: `mul_p` depends on its operands modulo `P` alone. -/
theorem mulP_congr {a' b' : Word} (ha : a.toNat ≡ a'.toNat [MOD modulus]) (hb : b.toNat ≡ b'.toNat [MOD modulus]) :
    mulP a b = mulP a' b' :=
  congrArg (BitVec.ofNat 64) (ha.mul hb)

/-- R94: so does the S-box. -/
theorem sboxP_congr {x y : Word} (h : x.toNat ≡ y.toNat [MOD modulus]) : sboxP x = sboxP y := by
  rw [sboxP_eq, sboxP_eq, h.pow 5]

/-- A reduced operand is the operand, modulo `P`. -/
theorem toNat_ofNat_mod_modEq (x : Nat) : (BitVec.ofNat 64 (x % modulus)).toNat ≡ x [MOD modulus] := by
  rw [toNat_ofNat_mod]
  exact Nat.mod_modEq x modulus

/-- R92: the range of `add_p`, whatever its second operand. -/
theorem addP_le {v : Word} (ha : a.toNat < modulus) (h : addP a b = some v) : v.toNat ≤ 2 ^ 64 - 2 := by
  obtain ⟨w, hw, value⟩ := addP_spec a b ha
  obtain rfl : w = v := Option.some.inj (hw.symm.trans h)
  have hb := b.isLt
  rw [modulus_eq] at *
  split at value <;> omega

/-- R92: with an unreduced second operand the one subtraction may leave `P` or more. -/
theorem modulus_le_addP_iff {v : Word} (ha : a.toNat < modulus) (hb : modulus ≤ b.toNat) (h : addP a b = some v) :
    modulus ≤ v.toNat ↔ 2 * modulus ≤ a.toNat + b.toNat := by
  obtain ⟨w, hw, value⟩ := addP_spec a b ha
  obtain rfl : w = v := Option.some.inj (hw.symm.trans h)
  rw [if_pos (by omega)] at value
  omega

/-- Settles O7: `addP_spec` is the algorithm; for a reduced `b` the sum is one modulo `P` (`addP_eq_of_elems`), and
otherwise `addP_congr` and `modulus_le_addP_iff` say what is left of that. -/
theorem addAlgorithmSubtractsModulusOnce : Obligations.AddAlgorithmSubtractsModulusOnce := by
  intro a b ha
  obtain ⟨v, hv, value⟩ := addP_spec a b ha
  refine ⟨decodeRecoversEveryEncoding (.maeAdd a b), v, hv, value, addP_le ha hv, fun hb => ?reduced, fun hb => ?unreduced⟩
  case reduced =>
    obtain rfl : v = _ := Option.some.inj (hv.symm.trans (addP_eq_of_elems ha hb))
    refine ⟨?_, toNat_ofNat_mod _, ?_⟩
    · rw [toNat_ofNat_mod]
      exact mod_modulus_lt _
    · rw [Nat.add_comm]
      exact addP_eq_of_elems hb ha
  case unreduced => exact ⟨addP_congr a b v hv, modulus_le_addP_iff ha hb hv⟩

/-- Settles O8: both are remainders modulo `P`, which depend on the operands modulo `P` alone. -/
theorem mulAndSboxReduceFully : Obligations.MulAndSboxReduceFully := by
  intro a b
  refine ⟨decodeRecoversEveryEncoding (.maeMul a b), decodeRecoversEveryEncoding (.maeSbox a b),
    ⟨mulP a b, rfl, mulP_toNat a b, mulP_lt a b, congrArg some (mulP_comm b a), congrArg some ?mul⟩,
    ⟨sboxP a, rfl, sboxP_toNat a, sboxP_lt a, congrArg some ?sbox⟩⟩
  case mul => exact mulP_congr (toNat_ofNat_mod_modEq _) (toNat_ofNat_mod_modEq _)
  case sbox => exact sboxP_congr (toNat_ofNat_mod_modEq _)

/-- Settles O10: each of the three results is a remainder modulo `P`. -/
theorem engineKeepsFieldElements : Obligations.EngineKeepsFieldElements := by
  intro a b ha hb
  obtain ⟨v, hv, value⟩ := addP_elems a b ha hb
  exact ⟨⟨v, hv, value, value ▸ mod_modulus_lt _⟩, ⟨mulP a b, rfl, mulP_toNat a b, mulP_lt a b⟩,
    ⟨sboxP a, rfl, sboxP_toNat a, sboxP_lt a⟩⟩

/-- Settles O11: `u` is congruent to the sum (`addP_congr`), and the S-box depends on nothing more (`sboxP_congr`). -/
theorem unreducedSumDoesNoHarm : Obligations.UnreducedSumDoesNoHarm := by
  intro a k u _ hu
  have congr : u.toNat ≡ a.toNat + k.toNat [MOD modulus] := addP_congr a k u hu
  refine ⟨congr, fun _ _ => congrArg some ?reducedSum, fun _ => congrArg some ?power, fun v _ hv => congrArg some ?reducedKey⟩
  case reducedSum => exact sboxP_congr (congr.trans (toNat_ofNat_mod_modEq _).symm)
  case power => rw [sboxP_eq, congr.pow 5]
  case reducedKey =>
    have congr' : v.toNat ≡ a.toNat + k.toNat [MOD modulus] :=
      Nat.ModEq.trans (addP_congr _ _ v hv) ((toNat_ofNat_mod_modEq k.toNat).add_left a.toNat)
    exact sboxP_congr (congr'.trans congr.symm)

/-- Settles O12: closed numbers, each computed. -/
theorem modulusIsCompositeAndSboxNotInjective : Obligations.ModulusIsCompositeAndSboxNotInjective :=
  ⟨by decide, by decide, by decide, by decide, by decide, by decide, by decide⟩

/-! ### The MAE's port driven by itself, R90 -/

theorem driveMae_some {op : MaeOp} {v : Word} (h : mae op a b = some v) : driveMae op a b s = .next { s with maeR := v } := by
  rw [driveMae, h, orAddRefused_some]

theorem driveMae_none {op : MaeOp} (h : mae op a b = none) : driveMae op a b s = .refused .addOutsideDomain := by
  rw [driveMae, h, orAddRefused_none]

/-- Settles O9: the port shows what the MAE answers, and MAE.ADD alone may have no answer (`addP_none`). -/
theorem maeDrivenAloneShowsResult : Obligations.MaeDrivenAloneShowsResult := by
  intro s a b
  refine ⟨fun ha => ?add, fun ha => driveMae_none (addP_none a b ha), driveMae_some (op := .mul) rfl, ?sbox⟩
  case add =>
    obtain ⟨v, hv, value⟩ := addP_spec a b ha
    exact ⟨v, driveMae_some hv, value⟩
  case sbox =>
    rw [← sboxP_eq]
    exact driveMae_some (op := .sbox) (b := b) rfl

/-! ### The engine commands, R95 to R97 -/

theorem engineCommand_inDomain {v : Word} (ready : s.ready = true) : engineCommand true (some v) s = .next { s with r := v } :=
  accept_ready ready _

theorem engineCommand_outsideDomain (ready : s.ready = true) (v : Option Word) :
    engineCommand false v s = .next (raiseFault .domain s) :=
  accept_ready ready _

theorem engineCommand_notReady (notReady : s.ready = false) (d : Bool) (v : Option Word) :
    engineCommand d v s = .next s :=
  accept_notReady notReady _

/-- A command of two operands, both checked: ADD and MUL. -/
theorem twoOperandCommand_cases {v : Option Word} {x : Word} (result : a.toNat < modulus → b.toNat < modulus → v = some x) :
    (s.ready = true → a.toNat < modulus → b.toNat < modulus →
      engineCommand (isElem a && isElem b) v s = .next { s with r := x }) ∧
    (s.ready = true → modulus ≤ a.toNat ∨ modulus ≤ b.toNat →
      engineCommand (isElem a && isElem b) v s = .next (raiseFault .domain s)) ∧
    (s.ready = false → engineCommand (isElem a && isElem b) v s = .next s) := by
  refine ⟨fun ready ha hb => ?inside, fun ready out => ?outside, fun notReady => engineCommand_notReady notReady _ v⟩
  case inside =>
    rw [(isElem_iff a).mpr ha, (isElem_iff b).mpr hb, result ha hb]
    exact engineCommand_inDomain ready
  case outside =>
    rw [(isElem_and_false a b).mpr out]
    exact engineCommand_outsideDomain ready v

/-- Settles O1: on field elements the MAE's sum is the one modulo `P`. -/
theorem addCommandSetsResultOrFaults : Obligations.AddCommandSetsResultOrFaults :=
  fun _ a b => ⟨decodeRecoversEveryEncoding (.add a b), twoOperandCommand_cases addP_eq_of_elems⟩

/-- Settles O2: the MAE's product is the one modulo `P` on every operand. -/
theorem mulCommandSetsResultOrFaults : Obligations.MulCommandSetsResultOrFaults :=
  fun _ a b => ⟨decodeRecoversEveryEncoding (.mul a b), twoOperandCommand_cases fun _ _ => rfl⟩

/-- Settles O3: the check is of `a` alone, and the MAE's S-box is the fifth power of it. -/
theorem sboxCommandSetsFifthPowerOrFaults : Obligations.SboxCommandSetsFifthPowerOrFaults := by
  intro s a b
  have command : exec (.sbox a b) s = engineCommand (isElem a) (some (sboxP a)) s := rfl
  rw [command, ← sboxP_eq]
  refine ⟨decodeRecoversEveryEncoding (.sbox a b), fun ready ha => ?inside, fun ready out => ?outside,
    fun notReady => engineCommand_notReady notReady _ _⟩
  case inside =>
    rw [(isElem_iff a).mpr ha]
    exact engineCommand_inDomain ready
  case outside =>
    rw [(isElem_false a).mpr out]
    exact engineCommand_outsideDomain ready _

/-! ### The sequencer's additions outside their domain, R91 -/

/-- MIX begins with an addition to lane 0. -/
theorem mixLanes_none {u : Lanes} (h : modulus ≤ u.l0.toNat) : mixLanes u = none := by
  simp [mixLanes, mixRow, mae, addP_none _ _ h]

/-- Settles O16: lane 0 is the first operand of the addition of KEYADD, and of the first one of MIX. -/
theorem addOutsideDomainStopsSequencer : Obligations.AddOutsideDomainStopsSequencer := by
  intro s h
  refine ⟨fun ph => (whenPhase_in ph _).trans ?keyadd, fun ph => (whenPhase_in ph _).trans ?mix⟩
  case keyadd => rw [mae, addP_none _ _ h, orAddRefused_none]
  case mix => rw [mixLanes_none h, orAddRefused_none]

/-! ### Engine and sequencer, R104 -/

theorem orAddRefused_eq_next {α : Type} {v : Option α} {k : α → State} (h : orAddRefused v k = .next t) :
    ∃ x, v = some x ∧ t = k x := by
  cases v with
  | none => exact nomatch h
  | some x => cases h; exact ⟨x, rfl, rfl⟩

/-- An engine command sets `R` and the fault registers at most. -/
theorem engineCommand_frame {d : Bool} {v : Option Word} (h : engineCommand d v s = .next t) :
    t = { s with r := t.r, err := t.err, ecode := t.ecode } := by
  rcases engineCommand_cases h with ⟨-, rfl⟩ | ⟨-, -, x, -, rfl⟩ | ⟨-, -, rfl⟩
  · rfl
  · rfl
  · rfl

/-- After MIX only the position has moved. -/
theorem afterMix_frame (s : State) : afterMix s = { s with rnd := (afterMix s).rnd, ph := (afterMix s).ph } := by
  by_cases last : s.rnd = lastRound
  · rw [afterMix_last s last]
  · rw [afterMix_next s last]

/-- A phase of a round sets the lanes and the position at most. -/
theorem step_round_frame (ph : s.ph = .keyadd ∨ s.ph = .sboxl ∨ s.ph = .mix) (rst : s.pins.rst = false)
    (h : step s = .next t) : t = { s with lanes := t.lanes, rnd := t.rnd, ph := t.ph, tape := s.tape.tail } := by
  rcases ph with ph | ph | ph
  · rw [step_keyadd rst ph] at h
    obtain ⟨v, -, rfl⟩ := orAddRefused_eq_next h
    rfl
  · rw [step_sboxl rst ph] at h
    cases h
    rfl
  · rw [step_mix rst ph] at h
    obtain ⟨v, -, rfl⟩ := orAddRefused_eq_next h
    rw [afterMix_frame]
    rfl

/-- Settles O31: an engine command is an `engineCommand`, `R` is written by an accepted engine command alone (O32),
which a busy block accepts none of, and the phases of a round are told by their equations. -/
theorem engineAndSequencerAreIsolated : Obligations.EngineAndSequencerAreIsolated := by
  refine ⟨fun s t a b i hi h => ?engine, fun s t busy rst h => ?sequencer, fun s t => step_round_frame⟩
  case engine =>
    simp only [List.mem_cons, List.not_mem_nil, or_false] at hi
    rcases hi with rfl | rfl | rfl
    · exact engineCommand_frame (s := s) h
    · exact engineCommand_frame (s := s) h
    · exact engineCommand_frame (s := s) h
  case sequencer =>
    obtain ⟨-, written, -⟩ := eachRegisterHasOnlyItsWriters s t rst h
    exact written.resolve_right fun acc => busy ((ready_iff s).mp acc.2.1).1

end Sys2Proof.Machine
end

section
/-! PROOFS. The family of spec/41_sequencer_ops.md, one operation at a time: START and the seven micro-operations
(R111 to R118), and the table of the sequencer position (R119). -/

namespace Sys2Proof.Machine

variable {s t : State}

/-! ### START, R111 -/

/-- START on a ready block, as an equation. -/
theorem execStart_ready (ready : s.ready = true) (n : Word) {m : Memory}
    (written : memWrite s.d 0 (zeroBytes digestBytes) = some m) :
    execStart n s = .next { s with n := n, i := 0, d := m, done := false, ph := .check } := by
  rw [execStart, accept_ready ready, written, orDigestFault_some]

/-- Settles O6: the write of 32 zero bytes succeeds (`startWrite_spec`), and without READY nothing is accepted. -/
theorem startCommandBeginsRun : Obligations.StartCommandBeginsRun := by
  intro s n b
  refine ⟨decodeRecoversEveryEncoding (.start n b), fun ready => ?ready, fun notReady => accept_notReady notReady _⟩
  obtain ⟨m, written, zero, rest, wf⟩ := startWrite_spec s.d
  exact ⟨_, execStart_ready ready n written, rfl, zero, rest, wf, rfl, rfl⟩

/-! ### CHECK and UNPACK, R112 and R113 -/

/-- Settles O13: both branches stand in the meaning of CHECK. -/
theorem checkEndsRunOrGoesOn : Obligations.CheckEndsRunOrGoesOn :=
  ⟨rfl, fun _ ph => whenPhase_in ph _⟩

/-- A lane of UNPACK, from the bytes of the digest register. -/
theorem reduce_digestChunk_toNat (m : Memory) (j : Fin 3) :
    (reduce (le64 (digestChunk m.digest j))).toNat = m.chunkValue j % modulus := by
  have eight : (digestChunk m.digest j).length = 8 := by simp [digestChunk, digestBytes, laneBytes]; omega
  rw [reduce_toNat, le64_toNat eight, leNat_digestChunk]

/-- Settles O14: the three chunks are read inside the digest register (`execUnpack_eq`), and each is reduced. -/
theorem unpackReducesChunksIntoLanes : Obligations.UnpackReducesChunksIntoLanes := by
  refine ⟨rfl, fun s ph => ⟨_, execUnpack_eq.trans (whenPhase_in ph _), fun j => ?lane⟩⟩
  have value : (Lanes.lane ⟨reduce (le64 (digestChunk s.d.digest 0)), reduce (le64 (digestChunk s.d.digest 1)),
      reduce (le64 (digestChunk s.d.digest 2))⟩ j).toNat = s.d.chunkValue j % modulus := by
    fin_cases j
    · exact reduce_digestChunk_toNat s.d 0
    · exact reduce_digestChunk_toNat s.d 1
    · exact reduce_digestChunk_toNat s.d 2
  exact ⟨value, value ▸ mod_modulus_lt _⟩

/-! ### KEYADD and SBOXL, R114 and R115 -/

/-- R114, R36: from a sum with a key of `P` or more `P` is always subtracted, and what is left is unreduced from the
value of lane 0 on that makes the sum `2*P`. -/
theorem addP_unreduced_key {a k v : Word} {key least : Nat} (ha : a.toNat < modulus) (h : addP a k = some v)
    (value : k.toNat = key) (large : modulus ≤ key) (total : least + key = 2 * modulus) :
    v.toNat = a.toNat + key - modulus ∧ (modulus ≤ v.toNat ↔ least ≤ a.toNat) := by
  subst value
  obtain ⟨w, hw, sum⟩ := addP_spec a k ha
  obtain rfl : w = v := Option.some.inj (hw.symm.trans h)
  rw [if_pos (by omega)] at sum
  refine ⟨sum, (modulus_le_addP_iff ha large h).trans ?_⟩
  omega

/-- Settles O15: the first key is a field element, so the sum is one modulo `P`; the two others are above `P`, so the
subtraction always happens (`addP_unreduced_key`). -/
theorem keyaddAddsRoundKeyToLaneZero : Obligations.KeyaddAddsRoundKeyToLaneZero := by
  refine ⟨rfl, fun s ph lt => ?_⟩
  obtain ⟨v, sum, -⟩ := addP_spec s.lanes.l0 (roundKey s.rnd) lt
  refine ⟨v, (whenPhase_in ph _).trans ?effect, fun rnd => ?first, fun rnd => ?second, fun rnd => ?third, keyadd_bound lt sum⟩
  case effect => rw [mae, sum, orAddRefused_some]
  case first =>
    rw [rnd] at sum
    obtain rfl : v = _ := Option.some.inj (sum.symm.trans (addP_eq_of_elems lt (by decide)))
    rw [toNat_ofNat_mod]
    exact ⟨mod_modulus_lt _, rfl⟩
  case second =>
    rw [rnd] at sum
    exact addP_unreduced_key lt sum rfl (by decide) (by decide)
  case third =>
    rw [rnd] at sum
    exact addP_unreduced_key lt sum rfl (by decide) (by decide)

/-- Settles O17: the S-box is the fifth power modulo `P` on every word (`sboxP_eq`). -/
theorem sboxlRaisesLaneZeroToFifthPower : Obligations.SboxlRaisesLaneZeroToFifthPower := by
  refine ⟨rfl, fun s ph => ?_⟩
  rw [← sboxP_eq]
  exact whenPhase_in ph _

/-! ### MIX and PACK, R116 and R117 -/

/-- Where MIX goes on, in one equation. -/
theorem afterMix_eq (s : State) :
    afterMix s = if s.rnd = 2 then { s with ph := .pack } else { s with rnd := s.rnd + 1, ph := .keyadd } := rfl

/-- Settles O18: on reduced lanes the three sums are `mixLanes_spec`. -/
theorem mixMultipliesSnapshotByMatrix : Obligations.MixMultipliesSnapshotByMatrix := by
  refine ⟨rfl, fun s ph red => ?_⟩
  obtain ⟨h0, h1, h2⟩ := (reduced_iff _).mp red
  obtain ⟨v, mixed, sums⟩ := mixLanes_spec s.lanes h0 h1 h2
  refine ⟨v, (whenPhase_in ph _).trans ?_, sums⟩
  rw [mixed, orAddRefused_some, afterMix_eq]

/-- Byte `k` of `BYTES_LE64`, inside the list. -/
theorem bytesLe64_getElem (v : Word) {k : Nat} (h : k < (bytesLe64 v).length) :
    (bytesLe64 v)[k] = v.extractLsb' (8 * k) 8 :=
  (List.getElem_eq_iff h).mpr (bytesLe64_getElem? v (by simpa using h))

/-- R117: after PACK's writes, every byte of every chunk. -/
theorem read_packLanes {m m' : Memory} {v : Lanes} (h : packLanes m v = some m') (j : Fin 3) {k : Nat} (hk : k < 8) :
    m'.read (8 * j + k) = (v.lane j).extractLsb' (8 * k) 8 := by
  obtain ⟨w, written, at0, at1, at2, -⟩ := packLanes_spec m v
  obtain rfl : w = m' := Option.some.inj (written.symm.trans h)
  fin_cases j
  · simpa [bytesLe64_getElem, Lanes.lane] using at0 k hk
  · simpa [bytesLe64_getElem, Lanes.lane] using at1 k hk
  · simpa [bytesLe64_getElem, Lanes.lane] using at2 k hk

/-- Settles O20: PACK's writes succeed, stay below byte 24 (`packLanes_spec`) and are read back (`read_packLanes`). -/
theorem packWritesLanesLittleEndian : Obligations.PackWritesLanesLittleEndian := by
  refine ⟨rfl, fun s ph => ?_⟩
  obtain ⟨m, written, -, -, -, rest, wf⟩ := packLanes_spec s.d s.lanes
  refine ⟨{ s with d := m, i := incrementI s.i, ph := .check }, (whenPhase_in ph _).trans ?effect, rfl,
    incrementI_toNat, fun j k hk => read_packLanes written j hk, rest, wf⟩
  case effect => rw [written, orDigestFault_some]

/-! ### IDLE and the table of the sequencer position, R118 and R119 -/

/-- Settles O21: with nothing driven the step is the hold, and `PH` of an idle block is written by an accepted START
alone (O32). -/
theorem idleHoldsUntilStartIsAccepted : Obligations.IdleHoldsUntilStartIsAccepted := by
  refine ⟨rfl, fun s => ⟨rfl, fun idle rst noCmd noMae => step_hold rst idle (.inr noCmd) noMae,
    fun idle rst t h left => ?left⟩⟩
  obtain ⟨-, -, -, -, -, -, moved, -⟩ := eachRegisterHasOnlyItsWriters s t rst h
  have acc : s.acceptsStart := (moved.resolve_left fun same => left (same.trans idle)).resolve_left fun busy => busy idle
  exact ⟨acc, ((ready_iff s).mp acc.2.1).2⟩

/-- The rows of R119 for an accepted engine command: `R` is written, or `E_DOMAIN` is taken. -/
theorem step_engine (acc : s.acceptsEngine) (h : step s = .next t) :
    t = { s with r := t.r, tape := s.tape.tail } ∨ t = { s with err := true, ecode := .domain, tape := s.tape.tail } := by
  obtain ⟨rst, ready, valid, op⟩ := acc
  have idle : s.ph = .idle := ((ready_iff s).mp ready).1
  cases step_inversion h with
  | reset rst' => rw [rst] at rst'; exact nomatch rst'
  | start _ _ acc' =>
    obtain ⟨-, -, -, op'⟩ := acc'
    rw [op'] at op
    exact absurd op (by decide)
  | engine _ _ _ _ v _ eq => exact .inl (by rw [eq]; rfl)
  | faulting _ _ c acc' eq =>
    cases c with
    | noFault => exact acc'.elim
    | illCmd =>
      obtain ⟨-, -, -, op'⟩ := acc'
      have engineOp : ∀ x : BitVec 3, x ∈ [0b011#3, 0b101#3, 0b110#3, 0b111#3] → ¬ x.toNat ≤ 2 := by decide
      exact absurd op (engineOp _ op')
    | domain => exact .inr eq
  | hold _ _ none | mae _ _ none => simp [ready, valid] at none
  | checkEnd _ ph | checkMore _ ph | unpack _ ph | keyadd _ ph | sboxl _ ph | mixLast _ ph | mixNext _ ph | pack _ ph =>
    rw [idle] at ph
    exact nomatch ph

/-- Settles O30: the rows of a command and of the hold by what a step can do, those of a run by the equation of each
micro-operation. -/
theorem sequencerPositionAdvancesByTable : Obligations.SequencerPositionAdvancesByTable := by
  intro s t h
  refine ⟨fun rst => ?reset, fun acc => ?start, fun acc => step_engine acc h, fun idle rst notStart => ?idle,
    fun rst _ => ⟨fun ph ended => ?checkEnd, fun ph more => ?checkMore, fun ph => ?unpack, fun ph => ?keyadd, fun ph => ?sboxl,
      fun ph next => ?mixNext, fun ph last => ?mixLast, fun ph => ?pack⟩⟩
  case reset =>
    rw [step_reset rst] at h
    cases h
    rfl
  case start =>
    obtain ⟨m, zero, eq⟩ := step_start acc
    rw [eq] at h
    cases h
    exact ⟨zero, rfl⟩
  case idle =>
    obtain ⟨-, -, -, -, i, rnd, ph, -⟩ := eachRegisterHasOnlyItsWriters s t rst h
    simpa [idle, notStart] using And.intro ph (And.intro rnd i)
  case checkEnd =>
    rw [step_check rst ph, if_pos ended] at h
    cases h
    rfl
  case checkMore =>
    rw [step_check rst ph, if_neg more] at h
    cases h
    rfl
  case unpack =>
    obtain ⟨v, -, eq⟩ := step_unpack rst ph
    rw [eq] at h
    cases h
    rfl
  case keyadd =>
    rw [step_keyadd rst ph] at h
    obtain ⟨v, -, rfl⟩ := orAddRefused_eq_next h
    rfl
  case sboxl =>
    rw [step_sboxl rst ph] at h
    cases h
    rfl
  case mixNext =>
    rw [step_mix rst ph] at h
    obtain ⟨v, -, rfl⟩ := orAddRefused_eq_next h
    have notLast : s.rnd ≠ lastRound := fun e => by rw [e] at next; exact absurd next (by decide)
    rw [afterMix_next { s.advance with lanes := v } notLast]
    have counted : (s.rnd + 1).val = s.rnd.val + 1 := by omega
    exact ⟨counted, rfl⟩
  case mixLast =>
    rw [step_mix rst ph] at h
    obtain ⟨v, -, rfl⟩ := orAddRefused_eq_next h
    rw [afterMix_last { s.advance with lanes := v } (Fin.ext last)]
    rfl
  case pack =>
    obtain ⟨m, written, eq⟩ := step_pack rst ph
    obtain ⟨w, written', -, -, -, rest, -⟩ := packLanes_spec s.d s.lanes
    obtain rfl : w = m := Option.some.inj (written'.symm.trans written)
    rw [eq] at h
    cases h
    exact ⟨incrementI_toNat, rest, rfl⟩

end Sys2Proof.Machine
end

section
/-! PROOFS. The family of spec/41_sequencer_ops.md, the pure functions: `unpack` and `pack` (R120, R121), the closed
form of a round (R127), `permute` and `iterate` as total functions (R123, R124). -/

namespace Sys2Proof.Machine

variable {d : List Byte}

/-! ### `unpack` and `pack` -/

/-- A field element is its own remainder. -/
theorem reduce_of_lt {v : Word} (h : v.toNat < modulus) : reduce v = v :=
  BitVec.eq_of_toNat_eq (by rw [reduce_toNat, Nat.mod_eq_of_lt h])

theorem reduced_reduce (a b c : Word) : Lanes.reduced ⟨reduce a, reduce b, reduce c⟩ :=
  (reduced_iff _).mpr (by simp only [reduce_toNat, mod_modulus_lt, and_self])

/-- `unpack` of a digest written as its chunks. -/
theorem unpackFn_append {c0 c1 c2 tail : List Byte} (h0 : c0.length = 8) (h1 : c1.length = 8) (h2 : c2.length = 8)
    (h3 : tail.length = 8) :
    unpackFn (c0 ++ c1 ++ c2 ++ tail) = some ⟨reduce (le64 c0), reduce (le64 c1), reduce (le64 c2)⟩ := by
  have past : c0.drop 16 = [] := List.drop_eq_nil_of_le (by omega)
  simp [unpackFn, digestChunk, digestBytes, laneBytes, List.drop_append, h0, h1, h2, h3, past]

/-- Settles O43: the digest is its chunks (`unpackFn_append`), and 8 bytes lose nothing in a word. -/
theorem unpackReadsThreeChunks : Obligations.UnpackReadsThreeChunks := by
  intro c0 c1 c2 tail h0 h1 h2 h3
  refine ⟨_, unpackFn_append h0 h1 h2 h3, reduced_reduce _ _ _, ?_, ?_, ?_⟩
  · rw [reduce_toNat, le64_toNat h0]
  · rw [reduce_toNat, le64_toNat h1]
  · rw [reduce_toNat, le64_toNat h2]

/-- A chunk comes back from its lane exactly where it was below `P`. -/
theorem bytesLe64_reduce_eq_iff {c : List Byte} (h : c.length = 8) :
    bytesLe64 (reduce (le64 c)) = c ↔ leNat c < modulus := by
  refine ⟨fun back => ?_, fun lt => ?_⟩
  · have value : leNat c % modulus = leNat c := by
      conv_rhs => rw [← back, leNat_bytesLe64, reduce_toNat, le64_toNat h]
    exact value ▸ mod_modulus_lt _
  · rw [reduce_of_lt (by rwa [le64_toNat h]), bytesLe64_le64 h]

/-- `unpack` undoes `pack` on reduced lanes. -/
theorem unpackFn_packFn {v : Lanes} (red : v.reduced) : unpackFn (packFn v) = some v := by
  obtain ⟨h0, h1, h2⟩ := (reduced_iff v).mp red
  rw [packFn, unpackFn_append (by simp) (by simp) (by simp) (by simp [laneBytes])]
  simp only [le64_bytesLe64, reduce_of_lt h0, reduce_of_lt h1, reduce_of_lt h2]

/-- Settles O44: chunk by chunk, since chunks of one length are told apart in an append. -/
theorem packAndUnpackAreInverse : Obligations.PackAndUnpackAreInverse := by
  refine ⟨fun _ => rfl, fun _ red => unpackFn_packFn red, fun c0 c1 c2 tail h0 h1 h2 h3 => ?_⟩
  rw [unpackFn_append h0 h1 h2 h3, Option.map_some, Option.some_inj, packFn]
  refine ⟨fun same => ?below, fun ⟨zero, lt0, lt1, lt2⟩ => ?same⟩
  case below =>
    obtain ⟨same, zero⟩ := List.append_inj' same (by simp [h3, laneBytes])
    obtain ⟨same, same2⟩ := List.append_inj' same (by simp [h2])
    obtain ⟨same0, same1⟩ := List.append_inj' same (by simp [h1])
    exact ⟨zero.symm, (bytesLe64_reduce_eq_iff h0).mp same0, (bytesLe64_reduce_eq_iff h1).mp same1,
      (bytesLe64_reduce_eq_iff h2).mp same2⟩
  case same =>
    rw [zero, (bytesLe64_reduce_eq_iff h0).mpr lt0, (bytesLe64_reduce_eq_iff h1).mpr lt1,
      (bytesLe64_reduce_eq_iff h2).mpr lt2]
    rfl

/-! ### The round -/

/-- R127, and that a round keeps the lanes reduced. -/
theorem roundFn_spec {v : Lanes} (k : Word) (red : v.reduced) : ∃ w, roundFn v k = some w ∧ w.reduced ∧
    w.l0.toNat = ((v.l0.toNat + k.toNat) ^ 5 % modulus + v.l1.toNat + v.l2.toNat) % modulus ∧
    w.l1.toNat = ((v.l0.toNat + k.toNat) ^ 5 % modulus + 2 * v.l1.toNat + v.l2.toNat) % modulus ∧
    w.l2.toNat = ((v.l0.toNat + k.toNat) ^ 5 % modulus + v.l1.toNat + 3 * v.l2.toNat) % modulus := by
  obtain ⟨h0, h1, h2⟩ := (reduced_iff v).mp red
  obtain ⟨a, sum, -⟩ := addP_spec v.l0 k h0
  have congr : a.toNat ≡ v.l0.toNat + k.toNat [MOD modulus] := addP_congr v.l0 k a sum
  have power : (sboxP a).toNat = (v.l0.toNat + k.toNat) ^ 5 % modulus := (sboxP_toNat a).trans (congr.pow 5)
  obtain ⟨w, mixed, sums⟩ := mixLanes_spec { v with l0 := sboxP a } (sboxP_lt a) h1 h2
  have red' : Lanes.reduced { v with l0 := sboxP a } := (reduced_iff _).mpr ⟨sboxP_lt a, h1, h2⟩
  refine ⟨w, by simp [roundFn, mae, sum, mixed], mixLanes_reduced red' mixed, ?_⟩
  rw [← power]
  exact sums

/-- Settles O42: the S-box sees the sum modulo `P` alone, and MIX is its three sums (`roundFn_spec`). -/
theorem roundHasClosedForm : Obligations.RoundHasClosedForm := by
  intro v k red
  obtain ⟨w, round, -, sums⟩ := roundFn_spec k red
  exact ⟨w, round, sums⟩

/-! ### `permute` and `iterate` -/

theorem packFn_length (v : Lanes) : (packFn v).length = 32 := by simp [packFn, laneBytes]

theorem packFn_tail (v : Lanes) : (packFn v).drop 24 = zeroBytes 8 :=
  List.drop_left' (by simp)

/-- `unpack` has a result on 32 bytes, and its lanes are reduced. -/
theorem unpackFn_total (h : d.length = 32) : ∃ v, unpackFn d = some v ∧ v.reduced :=
  ⟨_, if_pos h, reduced_reduce _ _ _⟩

/-- Settles O45: `unpack` and the three rounds have results, on reduced lanes throughout. -/
theorem permutationIsTotalWithZeroTail : Obligations.PermutationIsTotalWithZeroTail := by
  intro d h
  obtain ⟨v0, unpacked, red0⟩ := unpackFn_total h
  obtain ⟨v1, round1, red1, -⟩ := roundFn_spec (roundKey 0) red0
  obtain ⟨v2, round2, red2, -⟩ := roundFn_spec (roundKey 1) red1
  obtain ⟨v3, round3, -⟩ := roundFn_spec (roundKey 2) red2
  refine ⟨packFn v3, v0, v1, v2, v3, unpacked, round1, round2, round3, ?_, rfl, packFn_length v3, packFn_tail v3⟩
  simp [permuteFn, unpacked, round1, round2, round3]

/-- `permute` takes 32 bytes to 32 bytes. -/
theorem permuteFn_total (h : d.length = 32) : ∃ e, permuteFn d = some e ∧ e.length = 32 := by
  obtain ⟨e, -, -, -, -, -, -, -, -, permuted, -, length, -⟩ := permutationIsTotalWithZeroTail d h
  exact ⟨e, permuted, length⟩

theorem iterateFn_succ {n : Nat} (h : iterateFn n = some d) : iterateFn (n + 1) = permuteFn d := by
  rw [iterateFn, h, Option.bind_some]

/-- Every iteration has a result of 32 bytes. -/
theorem iterateFn_total (n : Nat) : ∃ d, iterateFn n = some d ∧ d.length = 32 := by
  induction n with
  | zero => exact ⟨zeroBytes digestBytes, rfl, zeroBytes_length _⟩
  | succ n ih =>
    obtain ⟨d, iterated, length⟩ := ih
    rw [iterateFn_succ iterated]
    exact permuteFn_total length

/-- Settles O46: `iterate(n)` is a digest (`iterateFn_total`), so `permute` has a result on it. -/
theorem iterateIsTotalFold : Obligations.IterateIsTotalFold := by
  refine ⟨rfl, fun n => ?_⟩
  obtain ⟨d, iterated, length⟩ := iterateFn_total n
  obtain ⟨e, permuted, -⟩ := permuteFn_total length
  exact ⟨d, e, iterated, (iterateFn_succ iterated).trans permuted, permuted, length⟩

end Sys2Proof.Machine
end

section
/-! PROOFS. The family of spec/41_sequencer_ops.md, the steps of a run: a round and a permutation as the pure functions
(R125), the run of START `n` and its end (R125, R186), and that nothing of it is seen before (R128). -/

namespace Sys2Proof.Machine

variable {s t : State} {n b : Word} {k : Nat}

/-! ### A round and a permutation -/

/-- Settles O38: `runSteps_round`, with the position after MIX written out (`afterMix_eq`). -/
theorem threeMicroOperationsAreOneRound : Obligations.ThreeMicroOperationsAreOneRound := by
  intro s ph red nr
  obtain ⟨v, round, red', run⟩ := runSteps_round ph red nr
  exact ⟨_, v, run, round, afterMix_eq _, red'⟩

/-- Settles O39: `runSteps_permutation`, where `I + 1` fits. -/
theorem elevenStepsAreOnePermutation : Obligations.ElevenStepsAreOnePermutation := by
  intro s ph tail fits nr
  obtain ⟨v, m, permuted, red, -, run⟩ := runSteps_permutation ph tail nr
  exact ⟨_, run, permuted, incrementI_toNat fits, rfl, red⟩

/-! ### The run of START -/

/-- START `n` on the command port of a ready block is accepted, with `n` in field `a`. -/
theorem acceptsStart_of_word (rst : s.pins.rst = false) (ready : s.ready = true) (valid : s.pins.cmdValid = true)
    (word : s.pins.word = commandWord 0b100#3 n b) : s.acceptsStart ∧ s.pins.cmdA = n := by
  have op := congrArg (BitVec.extractLsb' 128 3) word
  have count := congrArg (BitVec.extractLsb' 64 64) word
  rw [Pins.word, commandWord_op, commandWord_op] at op
  rw [Pins.word, commandWord_a, commandWord_a] at count
  exact ⟨⟨rst, ready, valid, op⟩, count⟩

/-- A faulted block starts no run, so none is over from it. -/
theorem not_runEndsAt_of_faulted (faulted : s.faulted) : ¬ runEndsAt s k t := by
  rintro ⟨⟨-, ready, -⟩, -⟩
  obtain ⟨-, err⟩ := faulted
  obtain ⟨-, noErr⟩ := (ready_iff s).mp ready
  rw [err] at noErr
  exact nomatch noErr

/-- Settles O40: the run is `run_of_start`, its end the only one (`runEndsAt_unique`), and `digest_out` shows `D` there
(`digestOutBytes_digest`). -/
theorem runComputesIterate : Obligations.RunComputesIterate := by
  refine ⟨fun s n b ready nr valid word => ?run, fun s k t faulted => not_runEndsAt_of_faulted faulted⟩
  obtain ⟨acc, rfl⟩ := acceptsStart_of_word (noReset_now nr) ready valid word
  obtain ⟨v, m, r, digest, ends⟩ := run_of_start acc nr
  have ⟨_, _, _, run, _⟩ := ends
  have noErr : s.err = false := ((ready_iff s).mp ready).2
  exact ⟨_, run, rfl, rfl, rfl, rfl, digest, rfl, rfl, rfl, digestOutBytes_digest rfl,
    (ready_iff _).mpr ⟨rfl, noErr⟩, ends, digest, fun k u ends' => runEndsAt_unique ends' ends⟩

/-- R32: STATUS of a block in a run, with no fault and DONE = 0. -/
theorem status_busy (busy : s.ph ≠ .idle) (done : s.done = false) (err : s.err = false) (ecode : s.ecode = .noFault) :
    s.status = 0x02#8 := by
  simp [State.status, State.ready, State.busy, busy, done, err, ecode, ECode.code]

/-- R128: what the host sees of such a block. -/
theorem observe_busy (busy : s.ph ≠ .idle) (done : s.done = false) (err : s.err = false) (ecode : s.ecode = .noFault) :
    s.observe = { status := 0x02, res := s.r, digestOut := 0 } := by
  rw [State.observe, status_busy busy done err ecode, digestOut_notDone done]
  rfl

/-- Settles O41: after the acceptance DONE is 0, and up to the last step nothing that is seen changes
(`run_busy_before_end`). -/
theorem runIsHiddenUntilItsLastStep : Obligations.RunIsHiddenUntilItsLastStep := by
  intro s n b k ready ecode nr valid word pos le
  obtain ⟨acc, rfl⟩ := acceptsStart_of_word (noReset_now nr) ready valid word
  obtain ⟨v, m, r, -, -, -, -, run, -⟩ := run_of_start acc nr
  refine ⟨?before, _, run, rfl, rfl⟩
  obtain ⟨m0, -, start⟩ := step_start acc
  obtain ⟨j, rfl⟩ : ∃ j, k = j + 1 := ⟨k - 1, by omega⟩
  obtain ⟨u, now, -⟩ := runSteps_split (j + 1) (12 * s.pins.cmdA.toNat + 1 - j)
    (by rwa [show j + 1 + (12 * s.pins.cmdA.toNat + 1 - j) = 12 * s.pins.cmdA.toNat + 2 by omega])
  have later := now
  rw [runSteps_next j start] at later
  obtain ⟨busy, done, res, err', ecode'⟩ := run_busy_before_end (by simp) (by simp [countOk])
    (noReset_fewer (noReset_next nr (step_tape start)) (by omega)) (by simp [stepsLeft]; omega) later
  refine ⟨u, now, (busy_iff u).mpr busy, ?_⟩
  rw [observe_busy busy done (err'.trans ((ready_iff s).mp ready).2) (ecode'.trans ecode), res]
  rfl

end Sys2Proof.Machine
end

section
/-! PROOFS. The family of spec/42_boundary_adapters.md, the adapters as functions: the input decoder (R141, R142) and
the output emitter (R143). -/

namespace Sys2Proof.Machine

variable {buf d : List Byte}

/-! ### The input decoder -/

theorem decodeN_eight (h : buf.length = 8) : decodeN buf = .ok (le64 buf) := if_pos h

theorem decodeN_otherLength (h : buf.length ≠ 8) : decodeN buf = .error { received := buf.length } := if_neg h

/-- A buffer that decodes has 8 bytes, and its count is their little-endian value. -/
theorem decodeN_ok {n : Word} (h : decodeN buf = .ok n) : n.toNat = leNat buf := by
  by_cases eight : buf.length = 8
  · rw [decodeN_eight eight] at h
    cases h
    exact le64_toNat eight
  · rw [decodeN_otherLength eight] at h
    exact nomatch h

/-- A buffer of 8 bytes goes on to the block. -/
theorem hashWordsOnBlock_ok {n : Word} (h : decodeN buf = .ok n) (fuel : Nat) (s : State) :
    hashWordsOnBlock fuel buf s = runPipeline fuel n s := by
  rw [hashWordsOnBlock, h]

/-- Any other is stopped before the block (R142). -/
theorem hashWordsOnBlock_error {e : InputLengthError} (h : decodeN buf = .error e) (fuel : Nat) (s : State) :
    hashWordsOnBlock fuel buf s = .aborted e := by
  rw [hashWordsOnBlock, h]

/-- Settles O52: the two branches of the decoder; 8 bytes lose nothing in a word (`le64_toNat`). -/
theorem inputAdapterDecodesEightBytes : Obligations.InputAdapterDecodesEightBytes := by
  intro buf
  refine ⟨fun eight => ⟨le64 buf, decodeN_eight eight, le64_toNat eight⟩, fun other => ?_⟩
  exact ⟨decodeN_otherLength other, hashWordsOnBlock_error (decodeN_otherLength other)⟩

/-! ### The output emitter -/

/-- A digest is emitted as eight words, word `k` read from byte `4k`. -/
theorem emitWords_spec (h : d.length = 32) : ∃ ws, emitWords d = some ws ∧ ws.length = 8 ∧
    ∀ k, k < 8 → ws[k]? = some (be32 ((d.drop (4 * k)).take 4)) := by
  refine ⟨_, if_pos h, by simp, fun k hk => ?_⟩
  rw [List.getElem?_map, List.getElem?_range hk, Option.map_some]

/-- Four bytes of a sequence from index `i`. -/
theorem take_four_drop {i : Nat} (h : i + 3 < d.length) :
    (d.drop i).take 4 = [d[i], d[i + 1], d[i + 2], d[i + 3]] := by
  simp only [List.drop_eq_getElem_cons (show i < d.length by omega), List.drop_eq_getElem_cons (show i + 1 < d.length by omega),
    List.drop_eq_getElem_cons (show i + 1 + 1 < d.length by omega), List.drop_eq_getElem_cons (show i + 1 + 1 + 1 < d.length by omega),
    List.take_succ_cons, List.take_zero]

/-- Settles O53: word `k` is `BE32` of four bytes (`emitWords_spec`), and loses none of them. -/
theorem outputAdapterReadsBigEndianWords : Obligations.OutputAdapterReadsBigEndianWords := by
  intro d h
  obtain ⟨ws, emitted, length, word⟩ := emitWords_spec h
  refine ⟨ws, emitted, length, fun k hk => ?value, fun tail => ⟨?six, ?seven⟩⟩
  case value =>
    rw [word k (by omega), take_four_drop hk, Option.map_some, be32_toNat rfl, beNat_four]
  case six =>
    rw [word 6 (by omega), tail]
    rfl
  case seven =>
    rw [word 7 (by omega), show 4 * 7 = 24 + 4 from rfl, ← List.drop_drop, tail]
    rfl

end Sys2Proof.Machine
end

section
/-! PROOFS. The family of spec/42_boundary_adapters.md, the pipeline on the block (R145): the host's wait for READY, on
a busy block and on a faulted one, the run it then starts, and the words it emits. -/

namespace Sys2Proof.Machine

variable {s t : State} {p : Pins} {n : Word} {buf : List Byte} {fuel : Nat}

/-! ### The steps of a busy block -/

/-- R168: a busy block goes on, where KEYADD and MIX find reduced lanes. -/
theorem step_busy_total (busy : s.ph ≠ .idle) (rst : s.pins.rst = false)
    (red : s.ph = .keyadd ∨ s.ph = .mix → s.lanes.reduced) : ∃ t, step s = .next t := by
  cases ph : s.ph with
  | idle => exact absurd ph busy
  | check => exact ⟨_, step_check rst ph⟩
  | unpack =>
    obtain ⟨v, -, eq⟩ := step_unpack rst ph
    exact ⟨_, eq⟩
  | keyadd =>
    obtain ⟨h0, -⟩ := (reduced_iff _).mp (red (.inl ph))
    obtain ⟨v, sum, -⟩ := addP_spec s.lanes.l0 (roundKey s.rnd) h0
    exact ⟨_, by rw [step_keyadd rst ph, sum, orAddRefused_some]⟩
  | sboxl => exact ⟨_, step_sboxl rst ph⟩
  | mix =>
    obtain ⟨h0, h1, h2⟩ := (reduced_iff _).mp (red (.inr ph))
    obtain ⟨v, mixed, -⟩ := mixLanes_spec s.lanes h0 h1 h2
    exact ⟨_, by rw [step_mix rst ph, mixed, orAddRefused_some]⟩
  | pack =>
    obtain ⟨m, -, eq⟩ := step_pack rst ph
    exact ⟨_, eq⟩

/-- The invariants give what such a step asks of the lanes (R22). -/
theorem inv_step_busy_total (hi : Inv s) (busy : s.ph ≠ .idle) (rst : s.pins.rst = false) : ∃ t, step s = .next t :=
  step_busy_total busy rst fun ph => inv_lanes_reduced hi (by rcases ph with ph | ph <;> simp [ph])

/-- The invariants hold with any inputs to come. -/
theorem inv_withTape (hi : Inv s) (tape : List Pins) : Inv { s with tape := tape } := { hi with }

theorem inv_countOk (hi : Inv s) : countOk s := ⟨hi.count, hi.running⟩

theorem stepsLeft_pos (busy : s.ph ≠ .idle) (count : countOk s) : 0 < stepsLeft s := by
  obtain ⟨-, more⟩ := count
  have := s.rnd.isLt
  cases ph : s.ph with
  | idle => exact absurd ph busy
  | check => simp [stepsLeft, ph]
  | unpack | keyadd | sboxl | mix | pack =>
    have := more busy (by simp [ph])
    simp only [stepsLeft, ph]
    omega

/-- No position of a run has more steps left than its first CHECK (R126). -/
theorem stepsLeft_le (s : State) : stepsLeft s ≤ 12 * s.n.toNat + 1 := by
  cases ph : s.ph <;> simp only [stepsLeft, ph] <;> omega

/-! ### The host waits for READY -/

/-- A step of a busy block, whatever the host keeps on the wires, reset apart: the run has one step less. -/
theorem step_held_busy (hi : Inv s) (busy : s.ph ≠ .idle) (rst : p.rst = false) : ∃ u, step { s with tape := [p] } = .next u ∧
    Inv u ∧ u.err = s.err ∧ stepsLeft u = stepsLeft s - 1 := by
  have held : Inv { s with tape := [p] } := inv_withTape hi [p]
  obtain ⟨u, next⟩ := inv_step_busy_total held busy rst
  obtain ⟨left, -, -, -, -, -, err, -⟩ := run_step (s := { s with tape := [p] }) busy rst (inv_countOk held) next
  exact ⟨u, next, everyStepKeepsInvariants _ u held next, err, left⟩

/-- On a ready block the wait is over at once. -/
theorem holdUntil_ready_now (ready : s.ready = true) :
    ∃ t, holdUntil p State.ready fuel s = .reached t ∧ t.ready = true :=
  ⟨s, holdUntil_here ready, ready⟩

/-- On a block of an execution without a fault the wait ends with the run (R175). -/
theorem holdUntil_ready (hi : Inv s) (noErr : s.err = false) (rst : p.rst = false) (le : stepsLeft s ≤ fuel) :
    ∃ t, holdUntil p State.ready fuel s = .reached t ∧ t.ready = true := by
  induction fuel generalizing s with
  | zero =>
    have idle : s.ph = .idle := by
      by_contra busy
      have := stepsLeft_pos busy (inv_countOk hi)
      omega
    exact holdUntil_ready_now ((ready_iff s).mpr ⟨idle, noErr⟩)
  | succ fuel ih =>
    by_cases idle : s.ph = .idle
    · exact holdUntil_ready_now ((ready_iff s).mpr ⟨idle, noErr⟩)
    · obtain ⟨u, next, hi', err, left⟩ := step_held_busy hi idle rst
      rw [holdUntil_next (not_ready_of_busy idle) next]
      exact ih hi' (err.trans noErr) (by omega)

/-- On a faulted block it never ends, DONE = 1 or not (R156). -/
theorem holdUntil_ready_faulted (faulted : s.faulted) (rst : p.rst = false) (mae : p.mae = none) (fuel : Nat) :
    ∃ t, holdUntil p State.ready fuel s = .waiting t := by
  have notReady : ∀ u : State, u.faulted → u.ready = false := fun u ⟨_, err⟩ => by simp [State.ready, err]
  obtain ⟨t, waits, -⟩ := holdUntil_never (p := p) notReady
    (fun u f => ⟨_, step_hold rst f.1 (.inl (notReady u f)) mae, f⟩) fuel faulted
  exact ⟨t, waits⟩

/-! ### The host waits for DONE -/

/-- DONE, read off `status` (R32). -/
theorem showsDone_eq (s : State) : s.showsDone = s.done := by
  obtain ⟨-, -, done, -⟩ := status_fields s.ecode.code s.err s.done s.busy s.ready
  exact done

/-- Once START is accepted, a host that observes until DONE reaches the end of the run, with `iterate(n)` in the digest
register. -/
theorem holdUntil_showsDone (ready : s.ready = true) (le : 12 * n.toNat + 1 ≤ fuel) :
    ∃ first last, step (s.presentStart n) = .next first ∧ holdUntil Pins.quiet State.showsDone fuel first = .reached last ∧
      last.done = true ∧ iterateFn n.toNat = some last.d.digest := by
  have acc := presentStart_acceptsStart (n := n) ready
  obtain ⟨m0, -, start⟩ := step_start acc
  obtain ⟨v, m, r, digest, -, -, -, run, -⟩ := run_of_start acc (presentStart_noReset _)
  rw [runSteps_next _ start] at run
  refine ⟨_, _, start, holdUntil_quiet le rfl run (showsDone_eq _) fun j u lt hu => ?before, rfl, digest⟩
  case before =>
    obtain ⟨-, done, -⟩ := run_busy_before_end (by simp) (by simp [countOk])
      (noReset_next (presentStart_noReset _) (step_tape start)) (by simp [stepsLeft, State.pins, Pins.ofCommand]; omega) hu
    exact (showsDone_eq u).trans done

/-! ### The pipeline -/

/-- From the state where the wait for READY ends, the pipeline runs START `n` and emits the words of `iterate(n)`. -/
theorem runPipeline_emits (wait : holdUntil (Pins.ofCommand 0b100#3 n 0) State.ready fuel s = .reached t)
    (ready : t.ready = true) (le : 12 * n.toNat + 1 ≤ fuel) :
    ∃ d ws, iterateFn n.toNat = some d ∧ emitWords d = some ws ∧ ws.length = 8 ∧
      (∀ k, k < 8 → ws[k]? = some (be32 ((d.drop (4 * k)).take 4))) ∧ runPipeline fuel n s = .emitted ws := by
  obtain ⟨first, last, start, run, done, digest⟩ := holdUntil_showsDone ready le
  obtain ⟨ws, emitted, length, word⟩ := emitWords_spec (d := last.d.digest) (by simp [digestBytes])
  have shown : digestOutBytes last.observe.digestOut = last.d.digest := digestOutBytes_digest done
  exact ⟨_, ws, digest, emitted, length, word, by simp only [runPipeline, wait, start, run, shown, emitted]⟩

/-- The wait for READY ends on a ready block, at once, and on a block of an execution without a fault. -/
theorem holdStart_reached (h : s.ready = true ∨ (Inv s ∧ s.err = false ∧ 12 * s.n.toNat + 1 ≤ fuel)) :
    ∃ t, holdUntil (Pins.ofCommand 0b100#3 n 0) State.ready fuel s = .reached t ∧ t.ready = true := by
  rcases h with ready | ⟨hi, noErr, le⟩
  · exact holdUntil_ready_now ready
  · exact holdUntil_ready hi noErr rfl ((stepsLeft_le s).trans le)

/-- Settles O54: the wait for READY ends in a ready state (`holdStart_reached`), where START `n` makes `iterate(n)` and
DONE shows it (`runPipeline_emits`); on a faulted block it does not end (`holdUntil_ready_faulted`). -/
theorem pipelineOnBlockIsHashWords : Obligations.PipelineOnBlockIsHashWords := by
  intro fuel buf s
  refine ⟨fun n decoded le starts => ?emits, fun e decoded => ?aborts, fun eight faulted => ?waits⟩
  case emits =>
    obtain ⟨t, wait, ready⟩ := holdStart_reached starts
    obtain ⟨d, ws, iterated, emitted, length, word, pipeline⟩ := runPipeline_emits wait ready le
    refine ⟨d, ws, decodeN_ok decoded ▸ iterated, ?_, (hashWordsOnBlock_ok decoded fuel s).trans pipeline, length, word⟩
    simp only [hashWords, decoded, iterated, Option.bind_some, emitted]
  case aborts => exact ⟨by rw [hashWords, decoded], hashWordsOnBlock_error decoded fuel s⟩
  case waits =>
    obtain ⟨t, wait⟩ := holdUntil_ready_faulted (p := Pins.ofCommand 0b100#3 (le64 buf) 0) faulted rfl rfl fuel
    rw [hashWordsOnBlock_ok (decodeN_eight eight), runPipeline, wait]

end Sys2Proof.Machine
end

section
/-! PROOFS. The family of spec/60_exceptions.md: that a step goes on (R168), the block's two faults (R150 to R155), and
the faulted state (R156). -/

namespace Sys2Proof.Machine

variable {s t : State}

/-! ### The word of an accepted command, and the word on the MAE port -/

/-- The three kinds of command: the engine commands (R75), the reserved ones (R78) and START. -/
theorem command_kinds (op : BitVec 3) :
    op.toNat ≤ 2 ∨ op ∈ [0b011#3, 0b101#3, 0b110#3, 0b111#3] ∨ op = 0b100#3 := by
  revert op
  decide

/-- R78: each reserved command is the illegal command. -/
theorem illegalCommand_of_reservedWord {op : BitVec 3} (reserved : op ∈ [0b011#3, 0b101#3, 0b110#3, 0b111#3]) (a b : Word) :
    ∃ i, encode i = .cmd (commandWord op a b) ∧ ∀ s, exec i s = illegalCommand s := by
  simp only [List.mem_cons, List.not_mem_nil, or_false] at reserved
  rcases reserved with rfl | rfl | rfl | rfl
  · exact ⟨.reserved011 a b, rfl, fun _ => rfl⟩
  · exact ⟨.reserved101 a b, rfl, fun _ => rfl⟩
  · exact ⟨.reserved110 a b, rfl, fun _ => rfl⟩
  · exact ⟨.reserved111 a b, rfl, fun _ => rfl⟩

/-- R95 to R97: each engine command checks the operands it uses, and on field elements the MAE has a result. -/
theorem engineCommand_of_engineWord {op : BitVec 3} (engine : op.toNat ≤ 2) (a b : Word) :
    ∃ i d v, encode i = .cmd (commandWord op a b) ∧ (∀ s, exec i s = engineCommand d v s) ∧
      (d = false ↔ modulus ≤ a.toNat ∨ (op ≠ 0b010#3 ∧ modulus ≤ b.toNat)) ∧ (d = true → ∃ x, v = some x) := by
  have ops : ∀ x : BitVec 3, x.toNat ≤ 2 → x = 0b000#3 ∨ x = 0b001#3 ∨ x = 0b010#3 := by decide
  rcases ops op engine with rfl | rfl | rfl
  · refine ⟨.add a b, _, _, rfl, fun _ => rfl, (isElem_and_false a b).trans (by simp), fun inside => ?_⟩
    obtain ⟨ha, hb⟩ := (Bool.and_eq_true _ _).mp inside
    exact ⟨_, addP_eq_of_elems ((isElem_iff a).mp ha) ((isElem_iff b).mp hb)⟩
  · exact ⟨.mul a b, _, _, rfl, fun _ => rfl, (isElem_and_false a b).trans (by simp), fun _ => ⟨_, rfl⟩⟩
  · exact ⟨.sbox a b, _, _, rfl, fun _ => rfl, (isElem_false a).trans (by simp), fun _ => ⟨_, rfl⟩⟩

/-- R91, R79: inside its domain the MAE has a result. -/
theorem driveMae_of_maeWord {op : BitVec 2} {a : Word} (defined : op ≠ 0b11#2) (inside : op = 0b00#2 → a.toNat < modulus)
    (b : Word) : ∃ i, encode i = .mae (maeWord op a b) ∧ ∀ s, ∃ v, exec i s = .next { s with maeR := v } := by
  rcases twoBits_cases op with rfl | rfl | rfl | rfl
  · obtain ⟨v, sum, -⟩ := addP_spec a b (inside rfl)
    exact ⟨.maeAdd a b, rfl, fun _ => ⟨v, driveMae_some sum⟩⟩
  · exact ⟨.maeMul a b, rfl, fun _ => ⟨_, driveMae_some (op := .mul) rfl⟩⟩
  · exact ⟨.maeSbox a b, rfl, fun _ => ⟨_, driveMae_some (op := .sbox) (b := b) rfl⟩⟩
  · exact absurd rfl defined

/-! ### The step that accepts a command, and the step of an idle block that accepts none -/

/-- A command that faults is accepted. -/
theorem accepts_of_acceptsFaulting {c : ECode} (acc : s.acceptsFaulting c) : s.accepts := by
  cases c with
  | noFault => exact acc.elim
  | illCmd =>
    obtain ⟨rst, ready, valid, -⟩ := acc
    exact ⟨rst, ready, valid⟩
  | domain =>
    obtain ⟨⟨rst, ready, valid, -⟩, -⟩ := acc
    exact ⟨rst, ready, valid⟩

/-- An accepted command is the operation its word encodes. -/
theorem step_accepts {i : Instr} (acc : s.accepts) (word : encode i = .cmd s.pins.word) : step s = exec i s.advance := by
  obtain ⟨rst, ready, valid⟩ := acc
  exact step_runs rst (by rw [fetch_command ready valid, ← word, decodeRecoversEveryEncoding])

/-- R153: the step that accepts a command that faults, as an equation. -/
theorem step_acceptsFaulting {c : ECode} (acc : s.acceptsFaulting c) : step s = .next (raiseFault c s.advance) := by
  have accepted := accepts_of_acceptsFaulting acc
  have ⟨_, ready, _⟩ := accepted
  cases c with
  | noFault => exact acc.elim
  | illCmd =>
    obtain ⟨-, -, -, reserved⟩ := acc
    obtain ⟨i, word, meaning⟩ := illegalCommand_of_reservedWord reserved s.pins.cmdA s.pins.cmdB
    rw [step_accepts accepted word, meaning]
    exact accept_ready (s := s.advance) ready _
  | domain =>
    obtain ⟨⟨-, -, -, engine⟩, out⟩ := acc
    obtain ⟨i, d, v, word, meaning, checked, -⟩ := engineCommand_of_engineWord engine s.pins.cmdA s.pins.cmdB
    rw [step_accepts accepted word, meaning, checked.mpr out]
    exact engineCommand_outsideDomain (s := s.advance) ready v

/-- Every accepted command has its effect: a result, a fault of the block, or the start of a run. -/
theorem step_accepts_total (acc : s.accepts) : ∃ t, step s = .next t := by
  have ⟨rst, ready, valid⟩ := acc
  rcases command_kinds s.pins.cmdOp with engine | reserved | start
  · obtain ⟨i, d, v, word, meaning, checked, result⟩ := engineCommand_of_engineWord engine s.pins.cmdA s.pins.cmdB
    cases d with
    | false => exact ⟨_, step_acceptsFaulting (c := .domain) ⟨⟨rst, ready, valid, engine⟩, checked.mp rfl⟩⟩
    | true =>
      obtain ⟨x, rfl⟩ := result rfl
      exact ⟨_, by rw [step_accepts acc word, meaning, engineCommand_inDomain (s := s.advance) ready]⟩
  · exact ⟨_, step_acceptsFaulting (c := .illCmd) ⟨rst, ready, valid, reserved⟩⟩
  · obtain ⟨m, -, eq⟩ := step_start ⟨rst, ready, valid, start⟩
    exact ⟨_, eq⟩

/-- An idle block that accepts no command holds, or serves the MAE port: at most `mae_r` changes. -/
theorem step_idle_frame (rst : s.pins.rst = false) (idle : s.ph = .idle) (noCmd : s.ready = false ∨ s.pins.cmdValid = false)
    (h : step s = .next t) : t = { s with maeR := t.maeR, tape := s.tape.tail } := by
  cases mae : s.pins.mae with
  | none =>
    rw [step_hold rst idle noCmd mae] at h
    cases h
    rfl
  | some m =>
    obtain ⟨v, rfl⟩ := step_mae rst idle noCmd mae h
    rfl

/-- Such a step goes on, where the MAE port is driven inside its domain. -/
theorem step_idle_total (rst : s.pins.rst = false) (idle : s.ph = .idle) (noCmd : s.ready = false ∨ s.pins.cmdValid = false)
    (domain : s.maeInDomain) : ∃ t, step s = .next t := by
  cases mae : s.pins.mae with
  | none => exact ⟨_, step_hold rst idle noCmd mae⟩
  | some m =>
    obtain ⟨defined, inside⟩ := domain m mae
    obtain ⟨i, word, meaning⟩ := driveMae_of_maeWord defined inside m.b
    obtain ⟨v, eq⟩ := meaning s.advance
    have decoded : decode s.fetch = .ok i := by
      rw [fetch_mae idle noCmd mae, MaeDrive.word, ← word, decodeRecoversEveryEncoding]
    exact ⟨_, (step_runs rst decoded).trans eq⟩

/-! ### Every step goes on -/

/-- Under the invariants a reset, a phase of a run, an accepted command or the step of an idle block answers a next
state. -/
theorem inv_step_total (hi : Inv s) (domain : s.maeInDomain) : ∃ t, step s = .next t := by
  cases rst : s.pins.rst with
  | true => exact ⟨_, step_reset rst⟩
  | false =>
    by_cases idle : s.ph = .idle
    · by_cases command : s.ready = true ∧ s.pins.cmdValid = true
      · exact step_accepts_total ⟨rst, command⟩
      · exact step_idle_total rst idle (by simpa [imp_iff_not_or] using command) domain
    · exact inv_step_busy_total hi idle rst

/-- Settles O37: the step goes on (`inv_step_total`), and what it answers meets the invariants (O35). -/
theorem invariantsMakeEveryStepGoOn : Obligations.InvariantsMakeEveryStepGoOn := by
  intro s hi domain
  obtain ⟨t, next⟩ := inv_step_total hi domain
  exact ⟨t, next, everyStepKeepsInvariants s t hi next⟩

/-! ### The fault registers -/

/-- R154: with `READY = 0` no step but a reset changes the fault registers (O32). -/
theorem step_notReady_fault (notReady : s.ready = false) (rst : s.pins.rst = false) (h : step s = .next t) :
    t.err = s.err ∧ t.ecode = s.ecode := by
  obtain ⟨-, -, -, -, -, -, -, -, fault⟩ := eachRegisterHasOnlyItsWriters s t rst h
  refine fault.resolve_right fun acc => ?_
  obtain ⟨-, ready, -⟩ := accepts_of_acceptsFaulting acc
  exact absurd (notReady.symm.trans ready) (by decide)

theorem not_ready_of_err (err : s.err = true) : s.ready = false := by simp [State.ready, err]

/-- Settles O23: a busy block goes on (`step_busy_total`), and it is not ready. -/
theorem microOperationsNeverStopOrFault : Obligations.MicroOperationsNeverStopOrFault := by
  intro s busy rst red
  obtain ⟨t, next⟩ := step_busy_total busy rst red
  exact ⟨t, next, step_notReady_fault (not_ready_of_busy busy) rst next⟩

/-- Settles O29: a faulted block is idle and accepts no command. -/
theorem faultedBlockIsQuiescentUntilReset : Obligations.FaultedBlockIsQuiescentUntilReset := by
  intro s faulted
  obtain ⟨idle, err⟩ := faulted
  have noCmd : s.ready = false ∨ s.pins.cmdValid = false := .inl (not_ready_of_err err)
  exact ⟨fun rst noMae => step_hold rst idle noCmd noMae, fun rst _ => step_idle_frame rst idle noCmd, step_reset⟩

/-- Settles O33: the fault registers are written by an accepted command that faults alone (O32), and that step is
`step_acceptsFaulting`; with `ERR = 1` the block is not ready. -/
theorem faultsArePreciseAndStick : Obligations.FaultsArePreciseAndStick := by
  intro s t rst h
  refine ⟨fun changed => ?precise, fun c acc => ?faults, fun err => ?sticks⟩
  case precise =>
    obtain ⟨-, -, -, -, -, -, -, -, fault⟩ := eachRegisterHasOnlyItsWriters s t rst h
    have acc : s.acceptsFaulting t.ecode := fault.resolve_left fun ⟨err, ecode⟩ =>
      changed.elim (fun ne => ne err) fun ne => ne ecode
    obtain ⟨-, ready, -⟩ := accepts_of_acceptsFaulting acc
    have eq : t = raiseFault t.ecode s.advance := Host.Outcome.next.inj (h.symm.trans (step_acceptsFaulting acc))
    exact ⟨ready, acc, eq⟩
  case faults =>
    rw [step_acceptsFaulting acc] at h
    cases h
    exact ⟨rfl, rfl⟩
  case sticks =>
    obtain ⟨err', ecode⟩ := step_notReady_fault (not_ready_of_err err) rst h
    exact ⟨err'.trans err, ecode⟩

end Sys2Proof.Machine
end

section
/-! PROOFS. The family of spec/70_reset_and_hazards.md: what a run uses of the MAE and of the clock (R184), and reset
(R170, R171). -/

namespace Sys2Proof.Machine

variable {s t : State} {k : Nat}

/-! ### Every step of a run goes on, whatever the lanes are at its first CHECK -/

/-- What a busy block asks of its lanes to go on: reduced, but for lane 0 between KEYADD and SBOXL (R22). -/
def lanesServeRun (s : State) : Prop :=
  (s.ph = .keyadd ∨ s.ph = .mix → s.lanes.reduced) ∧
    (s.ph = .sboxl → s.lanes.l1.toNat < modulus ∧ s.lanes.l2.toNat < modulus)

/-- R22: UNPACK and MIX reduce every lane, SBOXL lane 0. -/
theorem lanesServeRun_step (busy : s.ph ≠ .idle) (rst : s.pins.rst = false) (lanes : lanesServeRun s)
    (h : step s = .next t) : lanesServeRun t := by
  obtain ⟨red, unred⟩ := lanes
  cases step_inversion h with
  | reset rst' => rw [rst] at rst'; exact nomatch rst'
  | start _ ph | engine _ ph | faulting _ ph | hold _ ph | mae _ ph => exact absurd ph busy
  | checkEnd _ _ _ eq | checkMore _ _ _ eq | mixLast _ _ _ _ _ eq | pack _ _ _ _ eq => simp [lanesServeRun, eq]
  | unpack _ _ v val eq => simpa [lanesServeRun, eq] using unpackFn_reduced val
  | keyadd _ ph v _ eq =>
    obtain ⟨-, h1, h2⟩ := (reduced_iff _).mp (red (.inl ph))
    simp [lanesServeRun, eq, h1, h2]
  | sboxl _ ph eq =>
    obtain ⟨h1, h2⟩ := unred ph
    simp [lanesServeRun, eq, reduced_iff, sboxP_lt, h1, h2]
  | mixNext _ ph _ v val eq => simpa [lanesServeRun, eq] using mixLanes_reduced (red (.inr ph)) val

/-! ### What a run uses: R184's table, summed from its end -/

/-- What a run still uses of the MAE, by its position: 21 additions, 15 multiplications and 3 reductions for each
permutation to go, less what the micro-operations of the present one have used. -/
def useLeft (s : State) : EngineUse :=
  let m := s.n.toNat - s.i.toNat
  match s.ph with
  | .idle => ⟨0, 0, 0⟩
  | .check => ⟨21 * m, 15 * m, 3 * m⟩
  | .unpack => ⟨21 * m, 15 * m, 3 * m⟩
  | .keyadd => ⟨21 * m - 7 * s.rnd.val, 15 * m - 5 * s.rnd.val, 3 * m - 3⟩
  | .sboxl => ⟨21 * m - 7 * s.rnd.val - 1, 15 * m - 5 * s.rnd.val, 3 * m - 3⟩
  | .mix => ⟨21 * m - 7 * s.rnd.val - 1, 15 * m - 5 * s.rnd.val - 3, 3 * m - 3⟩
  | .pack => ⟨21 * m - 21, 15 * m - 15, 3 * m - 3⟩

/-- R184: each step of a run uses what the table says of its phase, and the rest is left. -/
theorem useLeft_step (busy : s.ph ≠ .idle) (rst : s.pins.rst = false) (count : countOk s) (h : step s = .next t) :
    useLeft s = s.ph.engineUse.plus (useLeft t) := by
  obtain ⟨le, more⟩ := count
  have hv := s.rnd.isLt
  cases step_inversion h with
  | reset rst' => rw [rst] at rst'; exact nomatch rst'
  | start _ ph | engine _ ph | faulting _ ph | hold _ ph | mae _ ph => exact absurd ph busy
  | checkEnd _ ph ended eq => simp [useLeft, Phase.engineUse, EngineUse.plus, eq, ph, ended]
  | checkMore _ ph _ eq => simp [useLeft, Phase.engineUse, EngineUse.plus, eq, ph]
  | unpack _ ph _ _ eq | keyadd _ ph _ _ eq | sboxl _ ph eq =>
    have := more busy (by simp [ph])
    simp [useLeft, Phase.engineUse, EngineUse.plus, eq, ph]
    omega
  | mixLast _ ph last _ _ eq =>
    have := more busy (by simp [ph])
    have rnd : s.rnd.val = 2 := by rw [last]; rfl
    simp [useLeft, Phase.engineUse, EngineUse.plus, eq, ph, rnd]
    omega
  | mixNext _ ph next _ _ eq =>
    have := more busy (by simp [ph])
    have rnd : s.rnd.val ≠ 2 := fun e => next (Fin.ext e)
    have rnd' : (s.rnd + 1).val = s.rnd.val + 1 := by omega
    simp [useLeft, Phase.engineUse, EngineUse.plus, eq, ph, rnd']
    omega
  | pack _ ph _ _ eq =>
    have := more busy (by simp [ph])
    have counted := incrementI_toNat (i := s.i) (by have := s.n.isLt; omega)
    simp [useLeft, Phase.engineUse, EngineUse.plus, eq, ph, counted]
    omega

theorem runUse_next (k : Nat) (h : step s = .next t) : runUse (k + 1) s = s.ph.engineUse.plus (runUse k t) := by
  rw [runUse, h]

theorem runCycles_next (k : Nat) (h : step s = .next t) : runCycles (k + 1) s = s.cycles + runCycles k t := by
  rw [runCycles, h]

/-- R8: a micro-operation takes a positive number of clock cycles. -/
theorem cycles_pos_of_busy (busy : s.ph ≠ .idle) (rst : s.pins.rst = false) : 0 < s.cycles := by
  rw [State.cycles, rst, fetch_busy busy]
  cases ph : s.ph with
  | idle => exact absurd ph busy
  | check | unpack | keyadd | sboxl | mix | pack => exact Nat.succ_pos _

/-- From any position a run uses what is left of it and takes a clock cycle a step at least: `stepsLeft` counts its
steps, `useLeft` its uses. -/
theorem runUse_stepsLeft (left : k = stepsLeft s) (count : countOk s) (lanes : lanesServeRun s) (nr : s.noReset k) :
    runUse k s = useLeft s ∧ k ≤ runCycles k s := by
  induction k generalizing s with
  | zero =>
    have idle : s.ph = .idle := by
      by_contra busy
      exact (stepsLeft_pos busy count).ne left
    simp [runUse, useLeft, idle]
  | succ k ih =>
    have busy : s.ph ≠ .idle := fun idle => by simp [stepsLeft, idle] at left
    have rst := noReset_now nr
    obtain ⟨t, next⟩ := step_busy_total busy rst lanes.1
    obtain ⟨less, count', -, tape, -⟩ := run_step busy rst count next
    obtain ⟨use, cycles⟩ := ih (by omega) count' (lanesServeRun_step busy rst lanes next) (noReset_next nr tape)
    have now := cycles_pos_of_busy busy rst
    rw [runUse_next k next, runCycles_next k next, use, useLeft_step busy rst count next]
    exact ⟨rfl, by omega⟩

/-- Settles O56: the first CHECK is a position with `N` permutations to go, and asks nothing of the lanes. -/
theorem runUsesEngineInProportion : Obligations.RunUsesEngineInProportion := by
  intro s ph first nr
  have count : countOk s := ⟨by simp [first], fun _ notCheck => absurd ph notCheck⟩
  have lanes : lanesServeRun s := by simp [lanesServeRun, ph]
  have run := runUse_stepsLeft (by simp [stepsLeft, ph, first]) count lanes nr
  simpa [useLeft, ph, first] using run

/-! ### Reset -/

/-- Settles O26: such a step is `takeReset` (`step_reset`), whose fields are the reset values. -/
theorem resetStepGivesResetState : Obligations.ResetStepGivesResetState := fun s rst =>
  ⟨takeReset s, step_reset rst, rfl, rfl, rfl, rfl, fun _ => rfl, rfl, rfl, rfl, rfl, rfl, rfl, rfl, rfl⟩

/-- Settles O27: with nothing on its wires the reset state holds (`step_hold`). -/
theorem observationAfterReset : Obligations.ObservationAfterReset :=
  ⟨rfl, rfl, rfl, rfl, step_hold rfl rfl (.inr rfl) rfl⟩

end Sys2Proof.Machine
end
